-- ==== Sys2Proof/Word.lean ====
section
/-! DEFINITION. The two datapath types of the core: a byte (8 bits) and a word (32 bits, unsigned).
Rules R8, R10 of spec/00_scope.md. Bit 0 is the least significant bit of each. -/

namespace Sys2Proof

/-- Eight bits, unsigned (R10). -/
abbrev Byte := BitVec 8

/-- Thirty-two bits, unsigned; `+` on it is addition modulo 2^32 (R11, R76). -/
abbrev Word := BitVec 32

end Sys2Proof
end

