-- ==== Sys2Proof/Config.lean ====
section
/-! DEFINITION. What an implementation fixes, and the free values: constants without a body, standing for the values the
spec leaves unspecified. No proof can see what a free value is, so a statement holds whatever it is. -/

namespace Sys2Proof.Config

/-- The parameter `HAS_HEX` of R9 (spec/00_scope.md, D16): whether the port `digest_hex` exists. OPEN in the spec, with the
default true, which is this value; the port's definition takes the parameter as an argument (assumption 16). -/
def HAS_HEX : Bool := true

/-! Free values. Each is applied to the counter `draw` of State, which every step advances (assumptions 2 and 3). -/

/-- `H[0..7]` after RESET: "every other register becomes unspecified" (R133, R34). -/
opaque freeH : Nat → Vector Word 8
/-- `a..h` after RESET (R133, R34). -/
opaque freeV : Nat → Vector Word 8
/-- `W[0..63]` after RESET (R133, R34). -/
opaque freeW : Nat → Vector Word 64
/-- `BLK[0..63]` after RESET (R133, R34). -/
opaque freeBLK : Nat → Vector Byte 64
/-- `DIGEST[0..31]` after RESET (R133, R34). -/
opaque freeDIGEST : Nat → Vector Byte 32
/-- `LEN` after RESET (R133, R34). -/
opaque freeLEN : Nat → BitVec 64
/-- `N` after RESET (R133, R34). -/
opaque freeN : Nat → BitVec 56
/-- `j` after RESET (R133, R34). -/
opaque freeJ : Nat → BitVec 56
/-- `k` after RESET (R133, R34). -/
opaque freeK : Nat → BitVec 6

/-- The byte LDB stores for an index outside the padded buffer, to which R87 gives no value (assumption 11). -/
opaque freePadByte : Nat → Byte
/-- The word WLD stores for `k > 15`, to which R105 gives no value (assumption 12). -/
opaque freeLoadedWord : Nat → Word
/-- The word WEX stores for `k < 16`, to which R106 gives no value (assumption 12). -/
opaque freeExpandedWord : Nat → Word
/-- `j + 1` where it does not fit 56 bits, to which R144 gives no value (assumption 13). -/
opaque freeNextJ : Nat → BitVec 56

/-- The port `msg_addr` while no message byte is read (R46, U8; assumption 14). -/
opaque freeMsgAddr : Nat → BitVec 61
/-- The port `msg_rdata` while no message byte is read (R45; assumption 25). -/
opaque freeMsgRdata : Nat → Byte
/-- The port `digest` while `done = 0` (R129, U3; assumption 15). -/
opaque freeDigestPort : Nat → BitVec 256
/-- The port `digest_hex` while `done = 0` (R129, U3; assumption 15). -/
opaque freeHexPort : Nat → BitVec 512

end Sys2Proof.Config
end

