-- ==== Sys2Proof/Syntax.lean ====
section
/-! DEFINITION. The instructions: one constructor per row of spec/opcode_table.json, three host commands and sixteen
micro-operation codes (R63, R65, R69 of spec/30_encoding.md). -/

namespace Sys2Proof

/-- The two formats of R61: the pins `{rst, start}` with the operand `len` beside them, and the phase code. -/
inductive Format where
  | hostcmd
  | uop
  deriving DecidableEq, Repr

/-- A host command or a micro-operation. A micro-operation has no operand fields: `j` and `k` are implicit (R64). -/
inductive Instr where
  /-- RESET, pattern `1s`; `start` is the bit s, ignored because `rst` wins (R63, R168). -/
  | reset (start : Bool)
  /-- START, pattern `01`, with its operand `len`, a byte count (R62, R134). -/
  | start (len : BitVec 64)
  /-- NOCMD, pattern `00`: no host command (R63). -/
  | nocmd
  /-- IDLE 0000, resting (R146). -/
  | idle
  /-- INIT 0001 (R138). -/
  | init
  /-- LDB 0010, load block byte (R98). -/
  | ldb
  /-- WLD 0011, schedule word load (R105). -/
  | wld
  /-- WEX 0100, schedule word expand (R106). -/
  | wex
  /-- RIN 0101, round initialise (R117). -/
  | rin
  /-- RND 0110, one round (R118). -/
  | rnd
  /-- FLD 0111, fold (R120). -/
  | fld
  /-- SER 1000, serialise (R127). -/
  | ser
  /-- DONE 1001, resting (R146). -/
  | done
  /-- ERROR 1010, resting (R146). -/
  | error
  /-- Reserved code 1011 (R69). -/
  | reservedB
  /-- Reserved code 1100 (R69). -/
  | reservedC
  /-- Reserved code 1101 (R69). -/
  | reservedD
  /-- Reserved code 1110 (R69). -/
  | reservedE
  /-- Reserved code 1111 (R69). -/
  | reservedF
  deriving DecidableEq, Repr

/-- The format an instruction is written in (R61). -/
def Instr.format : Instr → Format
  | .reset _ | .start _ | .nocmd => .hostcmd
  | .idle | .init | .ldb | .wld | .wex | .rin | .rnd | .fld | .ser | .done | .error
  | .reservedB | .reservedC | .reservedD | .reservedE | .reservedF => .uop

/-- How many bits a format has in the model's numbering: 2 pattern bits and 64 operand bits, or 4 code bits (R62, R64; the
place of `len` above the pattern is assumption 9). -/
def Format.bits : Format → Nat
  | .hostcmd => 66
  | .uop => 4

end Sys2Proof
end

