-- ==== Sys2Proof/WellFormed.lean ====
section
/-! DEFINITION. Which terms of `Instr` are instructions of the core: all but the five reserved codes. -/

namespace Sys2Proof

/-- A reserved code is no operation: "a state with no step (stuck), never as some operation" (R69). Every other term is well
formed: all host patterns are defined (R63) and every value of `len` is a legal encoding (R62). -/
def Instr.wellFormed : Instr → Bool
  | .reset _ | .start _ | .nocmd
  | .idle | .init | .ldb | .wld | .wex | .rin | .rnd | .fld | .ser | .done | .error => true
  | .reservedB | .reservedC | .reservedD | .reservedE | .reservedF => false

end Sys2Proof
end

