-- ==== Sys2Proof/Decode.lean ====
section
/-! DEFINITION. The codes of spec/30_encoding.md, the decoder from them and the encoder to them. -/

namespace Sys2Proof

/-! The values of the phase register (R24 of spec/10_state.md), which are the UOP codes (R64, R65). -/

abbrev Phase.idle : BitVec 4 := 0x0#4
abbrev Phase.init : BitVec 4 := 0x1#4
abbrev Phase.ldb : BitVec 4 := 0x2#4
abbrev Phase.wld : BitVec 4 := 0x3#4
abbrev Phase.wex : BitVec 4 := 0x4#4
abbrev Phase.rin : BitVec 4 := 0x5#4
abbrev Phase.rnd : BitVec 4 := 0x6#4
abbrev Phase.fld : BitVec 4 := 0x7#4
abbrev Phase.ser : BitVec 4 := 0x8#4
abbrev Phase.done : BitVec 4 := 0x9#4
abbrev Phase.error : BitVec 4 := 0xA#4

/-- The host command on the pins: `1x` RESET, `01` START, `00` none; all four patterns are defined (R63). -/
def decodeHostcmd (rst start : Bool) (len : BitVec 64) : Instr :=
  match rst, start with
  | true, s => .reset s
  | false, true => .start len
  | false, false => .nocmd

/-- The micro-operation with a given code (R65); the codes 1011 to 1111 are reserved (R69). -/
def decodeUop (code : BitVec 4) : Instr :=
  match code with
  | 0x0#4 => .idle
  | 0x1#4 => .init
  | 0x2#4 => .ldb
  | 0x3#4 => .wld
  | 0x4#4 => .wex
  | 0x5#4 => .rin
  | 0x6#4 => .rnd
  | 0x7#4 => .fld
  | 0x8#4 => .ser
  | 0x9#4 => .done
  | 0xA#4 => .error
  | 0xB#4 => .reservedB
  | 0xC#4 => .reservedC
  | 0xD#4 => .reservedD
  | 0xE#4 => .reservedE
  | _ => .reservedF

/-- Why a string of bits is no word of a format. -/
inductive DecodeError where
  /-- A bit is set above the format's own bits (66 for a host command with its operand, 4 for a micro-operation). -/
  | bitsAboveFormat
  deriving DecidableEq, Repr

/-- The decoder, total on any bits: `w` read as a word of format `f`, bit 0 the least significant. A host command has
`start` in bit 0 and `rst` in bit 1 (R62) and its operand `len` in bits 65 to 2 (assumption 9). -/
def decodeWord (f : Format) (w : Nat) : Except DecodeError Instr :=
  match f with
  | .hostcmd =>
    if w < 2 ^ 66 then .ok (decodeHostcmd (w / 2 % 2 == 1) (w % 2 == 1) (BitVec.ofNat 64 (w / 4)))
    else .error .bitsAboveFormat
  | .uop => if w < 2 ^ 4 then .ok (decodeUop (BitVec.ofNat 4 w)) else .error .bitsAboveFormat

/-- The word of an instruction in its own format, numbered as `decodeWord` reads it (R62 to R65, R69). RESET and NOCMD are given
the operand 0, which they ignore. -/
def encode : Instr → Nat
  | .reset start => 0b10 + start.toNat
  | .start len => 0b01 + 4 * len.toNat
  | .nocmd => 0b00
  | .idle => 0b0000
  | .init => 0b0001
  | .ldb => 0b0010
  | .wld => 0b0011
  | .wex => 0b0100
  | .rin => 0b0101
  | .rnd => 0b0110
  | .fld => 0b0111
  | .ser => 0b1000
  | .done => 0b1001
  | .error => 0b1010
  | .reservedB => 0b1011
  | .reservedC => 0b1100
  | .reservedD => 0b1101
  | .reservedE => 0b1110
  | .reservedF => 0b1111

/-- The format a word of the opcode table is in, by its number of bits alone: the table's two formats are read at different
places, so their words overlap (assumption 8). Two bits (the pins) and more than eight (the pins with `len`) are a host
command; four bits, or the one byte they fill, are a micro-operation. -/
def tableFormat (nbits : Nat) : Format :=
  if nbits < 4 ∨ 8 < nbits then .hostcmd else .uop

/-- The instruction the decoder reads from a word of the opcode table. -/
def decodeTableWord (nbits w : Nat) : Option Instr :=
  match decodeWord (tableFormat nbits) w with
  | .ok i => some i
  | .error _ => none

end Sys2Proof
end

