-- ==== Sys2Proof/Machine/State.lean ====
section
/-! DEFINITION. The state of the core, of its message memory and of the host's pending moves, as plain data; the reasons a
step can stop; the state after reset. Rules R13 to R35 of spec/10_state.md, R41 of spec/20_memory.md. -/

namespace Sys2Proof.Machine

/-- The message memory MSG (R41): address and byte, in the canonical form `Memory.wf` of Machine/Ops.lean. -/
abbrev Memory := List Host.Cell

/-- One move of the host, made for one step (R13, R29, R151): the bytes it puts into MSG before the step, and what it drives
on the pins `rst`, `start` and `len` in the step. -/
structure HostMove where
  writes : List Host.Cell
  rst : Bool
  start : Bool
  len : BitVec 64
  deriving DecidableEq, Repr

/-- The machine. Register names are the spec's. -/
structure State where
  /-- Hash State, R14. -/
  H : Vector Word 8
  /-- Working registers `a, b, c, d, e, f, g, h`, R15. -/
  V : Vector Word 8
  /-- Message schedule, R16. -/
  W : Vector Word 64
  /-- Block buffer, R17. -/
  BLK : Vector Byte 64
  /-- Digest register, R18. -/
  DIGEST : Vector Byte 32
  /-- Length register, a byte count, R22. -/
  LEN : BitVec 64
  /-- Block count, R23. -/
  N : BitVec 56
  /-- Phase register, R24. Four bits, so that a reserved code can be held and is stuck (R69). -/
  phase : BitVec 4
  /-- Block counter, R25. -/
  j : BitVec 56
  /-- Inner counter, R26. -/
  k : BitVec 6
  /-- Message memory, owned by the host, R41. -/
  MSG : Memory
  /-- The host's moves still to come, the next step's first (assumption 5). -/
  host : List HostMove
  /-- The model's own counter for free values, no register of the core (assumption 3). -/
  draw : Nat
  deriving DecidableEq, Repr

/-- Why the machine stops. -/
inductive Fault where
  /-- The phase register holds a reserved code 0xB to 0xF: "a state with no step (stuck), never as some operation" (R69).
  Raised by the micro-operations RESERVED_B to RESERVED_F. Safe: no run from a reset reaches it. -/
  | stuckReservedPhase (code : BitVec 4)
  deriving DecidableEq, Repr

/-- Why the model has no step. -/
inductive Refusal where
  /-- An instruction that has no meaning yet; raised in `exec` alone. Safe. -/
  | notModelled (mnemonic : String)
  /-- The host changes a byte of `MSG[0..L-1]` while `busy = 1`, against its duty of R186; U4 asks for a refusal. Raised by
  `step`. Safe: the model says nothing of such a host. -/
  | hostChangedMessageWhileBusy (addr : Nat)
  /-- The host writes to an address the message memory does not have (R41, R9). Raised by `step`. Safe. -/
  | hostWroteOutsideMessage (addr : Nat)
  deriving DecidableEq, Repr

/-- The machine right after reset (R34, R181): `phase` is IDLE. The spec leaves every other register unspecified; the zeros
here are the model's own values (assumption 1). MSG lists nothing and the host has no moves to make. -/
def State.reset : State where
  H := Vector.replicate 8 0
  V := Vector.replicate 8 0
  W := Vector.replicate 64 0
  BLK := Vector.replicate 64 0
  DIGEST := Vector.replicate 32 0
  LEN := 0
  N := 0
  phase := Phase.idle
  j := 0
  k := 0
  MSG := []
  host := []
  draw := 0

end Sys2Proof.Machine
end

