-- ==== Sys2Proof/Machine/Flags.lean ====
section
/-! DEFINITION. The three flags, each a function of `phase` and nothing else (R28 of spec/10_state.md). The datapath has no
carry, zero, sign or overflow flag (R28, R82), so these are all the flag computations there are. -/

namespace Sys2Proof.Machine

/-- The phases with `busy = 1`: `0x1 <= phase <= 0x8` (R28). -/
def busyAt (phase : BitVec 4) : Bool := decide (0x1 ≤ phase.toNat) && decide (phase.toNat ≤ 0x8)

/-- The resting phases, in which START is accepted: IDLE, DONE, ERROR (R24, R134). -/
def restingAt (phase : BitVec 4) : Bool := phase == Phase.idle || phase == Phase.done || phase == Phase.error

/-- `busy = 1` iff `0x1 <= phase <= 0x8` (R28). -/
def State.busy (s : State) : Bool := busyAt s.phase

/-- `done = 1` iff `phase = 0x9` (R28). -/
def State.done (s : State) : Bool := s.phase == Phase.done

/-- `err = 1` iff `phase = 0xA` (R28). -/
def State.err (s : State) : Bool := s.phase == Phase.error

/-- The state is in a resting phase. -/
def State.resting (s : State) : Bool := restingAt s.phase

end Sys2Proof.Machine
end

