-- ==== Sys2Proof/Machine/Rom.lean ====
section
/-! DEFINITION. The read-only constants `IV` and `K`: definitions, not state (R19, R20, R21 of spec/10_state.md). The spec
supplies their values from general knowledge (assumption 17). -/

namespace Sys2Proof.Machine.Rom

/-- The eight initial hash values (R19). -/
def IV : Vector Word 8 :=
  #v[0x6a09e667, 0xbb67ae85, 0x3c6ef372, 0xa54ff53a, 0x510e527f, 0x9b05688c, 0x1f83d9ab, 0x5be0cd19]

/-! The rows of the table of R20. -/

def K0 : List Word := [0x428a2f98, 0x71374491, 0xb5c0fbcf, 0xe9b5dba5, 0x3956c25b, 0x59f111f1, 0x923f82a4, 0xab1c5ed5]
def K8 : List Word := [0xd807aa98, 0x12835b01, 0x243185be, 0x550c7dc3, 0x72be5d74, 0x80deb1fe, 0x9bdc06a7, 0xc19bf174]
def K16 : List Word := [0xe49b69c1, 0xefbe4786, 0x0fc19dc6, 0x240ca1cc, 0x2de92c6f, 0x4a7484aa, 0x5cb0a9dc, 0x76f988da]
def K24 : List Word := [0x983e5152, 0xa831c66d, 0xb00327c8, 0xbf597fc7, 0xc6e00bf3, 0xd5a79147, 0x06ca6351, 0x14292967]
def K32 : List Word := [0x27b70a85, 0x2e1b2138, 0x4d2c6dfc, 0x53380d13, 0x650a7354, 0x766a0abb, 0x81c2c92e, 0x92722c85]
def K40 : List Word := [0xa2bfe8a1, 0xa81a664b, 0xc24b8b70, 0xc76c51a3, 0xd192e819, 0xd6990624, 0xf40e3585, 0x106aa070]
def K48 : List Word := [0x19a4c116, 0x1e376c08, 0x2748774c, 0x34b0bcb5, 0x391c0cb3, 0x4ed8aa4a, 0x5b9cca4f, 0x682e6ff3]
def K56 : List Word := [0x748f82ee, 0x78a5636f, 0x84c87814, 0x8cc70208, 0x90befffa, 0xa4506ceb, 0xbef9a3f7, 0xc67178f2]

/-- The sixty-four round constants (R20). -/
def K : List Word := K0 ++ K8 ++ K16 ++ K24 ++ K32 ++ K40 ++ K48 ++ K56

/-- The word `K[t]`, `0 <= t <= 63` (R20). A round number has six bits, so no other index is ever asked for. -/
def roundConstant (t : Nat) : Word := K.getD t 0

end Sys2Proof.Machine.Rom
end

