-- ==== Sys2Proof/Machine/Ops.lean ====
section
/-! DEFINITION. The named operations over the message memory, the sequencer position and the registers: reading and writing
MSG, the host's moves, the inner loops, taking the one fault and leaving it, RESET's effect, the stuck state. -/

namespace Sys2Proof.Machine

/-! The message memory (R41, R45 of spec/20_memory.md). -/

/-- What a byte the host has not put reads as: the model's choice (assumption 4). -/
def Memory.unlisted : Byte := 0x00

/-- The greatest length accepted, `2^61 - 1` bytes, and so the least address no message has (R9, R41). -/
def Memory.size : Nat := 2 ^ 61 - 1

/-- `MemRead(MSG, addr, 1)` (R45): no side effect, no fault. -/
def Memory.read : Memory → Nat → Byte
  | [], _ => Memory.unlisted
  | (a, b) :: rest, x => if x = a then b else Memory.read rest x

/-- The host puts byte `v` at address `x`, keeping the canonical form. The core itself has no store (R47). -/
def Memory.write : Memory → Nat → Byte → Memory
  | [], x, v => if v = Memory.unlisted then [] else [(x, v)]
  | (a, b) :: rest, x, v =>
    if x < a then (if v = Memory.unlisted then (a, b) :: rest else (x, v) :: (a, b) :: rest)
    else if x = a then (if v = Memory.unlisted then rest else (x, v) :: rest)
    else (a, b) :: Memory.write rest x v

/-- The canonical form from address `lo` on: addresses strictly rising and below the memory's size, no entry equal to what an
unlisted address reads as. -/
def Memory.wfFrom : Memory → Nat → Bool
  | [], _ => true
  | (a, b) :: rest, lo =>
    decide (lo ≤ a) && decide (a < Memory.size) && !(b == Memory.unlisted) && Memory.wfFrom rest (a + 1)

/-- The canonical form: equal memories are equal lists. -/
def Memory.wf (m : Memory) : Bool := Memory.wfFrom m 0

/-- The host's writes of one move, in order. -/
def Memory.writeAll (m : Memory) : List Host.Cell → Memory
  | [] => m
  | (a, b) :: rest => Memory.writeAll (Memory.write m a b) rest

/-! The host's moves (R13, R29, R151). -/

/-- No command and no write: what the host does when it has no move left (assumption 5). -/
def HostMove.none : HostMove where
  writes := []
  rst := false
  start := false
  len := 0

/-- The host's move for the next step. -/
def State.move (s : State) : HostMove := s.host.headD HostMove.none

/-- What the model does with one write of the host: refuse it where MSG has no such byte, refuse a change of the message of a
run in progress (R186, U4; assumption 6), or make it. -/
def State.checkWrite (s : State) (c : Host.Cell) : Option Refusal :=
  if Memory.size ≤ c.1 then some (.hostWroteOutsideMessage c.1)
  else if s.busy && decide (c.1 < s.LEN.toNat) && !(c.2 == Memory.read s.MSG c.1) then
    some (.hostChangedMessageWhileBusy c.1)
  else none

/-- The first refusal among the host's writes of its move, if any. -/
def State.hostRefusal (s : State) : Option Refusal := s.move.writes.findSome? s.checkWrite

/-- The state after the host's writes of its move (assumption 19: they come before the step). -/
def State.afterHostWrites (s : State) : State := { s with MSG := Memory.writeAll s.MSG s.move.writes }

/-- The end of a step: the host's move is spent, and the counter of the free values goes on (assumption 3). -/
def State.advance (s : State) : State := { s with host := s.host.tail, draw := s.draw + 1 }

/-! The sequencer (R139 to R143 of spec/46_sequencer_and_host.md). -/

/-- The end of one step of an inner loop: count `k` up to `last`, then set `k` to `restart` and go to phase `after`. -/
def State.nextInner (s : State) (last : Nat) (restart : BitVec 6) (after : BitVec 4) : State :=
  if s.k.toNat < last then { s with k := s.k + 1 } else { s with k := restart, phase := after }

/-! The fault, its return, RESET, and the reserved codes. -/

/-- The names of the faults of the core; there is one, LEN_OVERFLOW (R161 of spec/60_exceptions.md). -/
inductive Cause where
  | lenOverflow
  deriving DecidableEq, Repr

/-- The cause code; no register holds it, it is "the name a model's fault type gives it" (R161). -/
def Cause.code : Cause → Nat
  | .lenOverflow => 1

/-- Taking a fault: `phase <- ERROR` and nothing else; nothing is saved and nothing is vectored (R161, R165; assumption 18). -/
def State.raise (s : State) (c : Cause) : State :=
  match c with
  | .lenOverflow => { s with phase := Phase.error }

/-- An accepted START, which is also one of the two ways out of ERROR (R134, R166): `LEN <- len`, `phase <- INIT`. -/
def State.beginRun (s : State) (len : BitVec 64) : State := { s with LEN := len, phase := Phase.init }

/-- RESET, the other way out of ERROR (R133, R166, R181): `phase <- IDLE`; every other register becomes unspecified, which is a
free value (assumption 2). MSG is the host's and is not reset. -/
def State.resetRegisters (s : State) : State :=
  { s with
    phase := Phase.idle
    H := Config.freeH s.draw
    V := Config.freeV s.draw
    W := Config.freeW s.draw
    BLK := Config.freeBLK s.draw
    DIGEST := Config.freeDIGEST s.draw
    LEN := Config.freeLEN s.draw
    N := Config.freeN s.draw
    j := Config.freeJ s.draw
    k := Config.freeK s.draw }

/-- A reserved phase code has no step (R69). -/
def stuck (code : BitVec 4) : Host.Outcome State Fault Refusal := .fault (.stuckReservedPhase code)

end Sys2Proof.Machine
end

