-- ==== Sys2Proof/Machine/Primitives.lean ====
section
/-! DEFINITION. The combinational functions of the datapath, pure and total (R76 to R83 of spec/40_word_primitives.md, R101,
R102 of spec/43_message_scheduler.md, R111 to R115 of spec/44_compressor.md). `+` on words is `add32` (R76). -/

namespace Sys2Proof.Machine

/-- 32-bit rotate right by a wired amount `1 <= n <= 31` (R78). -/
def rotr (x : Word) (n : Nat) : Word := (x >>> n) ||| (x <<< (32 - n))

/-- Logical right shift (R79). -/
def shr (x : Word) (n : Nat) : Word := x >>> n

/-- The word with `b0` most significant, each byte widened with zeros (R81, R48). -/
def be32 (b0 b1 b2 b3 : Byte) : Word :=
  (b0.zeroExtend 32 <<< 24) ||| (b1.zeroExtend 32 <<< 16) ||| (b2.zeroExtend 32 <<< 8) ||| b3.zeroExtend 32

/-- Byte `m` of a word, `m = 0` the most significant: `(w >> (24 - 8*m)) ∧ 0xFF` (R81, R126). -/
def byteOf (w : Word) (m : Nat) : Byte := (shr w (24 - 8 * m)).truncate 8

/-- σ0 (R101): two rotations and a shift (R103). -/
def smallSigma0 (x : Word) : Word := rotr x 7 ^^^ rotr x 18 ^^^ shr x 3

/-- σ1 (R102): two rotations and a shift (R103). -/
def smallSigma1 (x : Word) : Word := rotr x 17 ^^^ rotr x 19 ^^^ shr x 10

/-- Σ0 (R111): three rotations. -/
def bigSigma0 (x : Word) : Word := rotr x 2 ^^^ rotr x 13 ^^^ rotr x 22

/-- Σ1 (R112): three rotations. -/
def bigSigma1 (x : Word) : Word := rotr x 6 ^^^ rotr x 11 ^^^ rotr x 25

/-- Choose (R113). -/
def ch (x y z : Word) : Word := (x &&& y) ^^^ (~~~x &&& z)

/-- Majority (R114). -/
def maj (x y z : Word) : Word := (x &&& y) ^^^ (x &&& z) ^^^ (y &&& z)

/-- The wire `T1` of R115, from the working registers, a constant word and a schedule word. -/
def roundT1 (v : Vector Word 8) (kt wt : Word) : Word := v[7] + bigSigma1 v[4] + ch v[4] v[5] v[6] + kt + wt

/-- The wire `T2` of R115. -/
def roundT2 (v : Vector Word 8) : Word := bigSigma0 v[0] + maj v[0] v[1] v[2]

/-- One round (R115): the parallel assignment to `(a,b,c,d,e,f,g,h)`. -/
def round (v : Vector Word 8) (kt wt : Word) : Vector Word 8 :=
  #v[roundT1 v kt wt + roundT2 v, v[0], v[1], v[2], v[3] + roundT1 v kt wt, v[4], v[5], v[6]]

/-- The fold (R116, R120): eight independent sums, no carry from one word into the next. -/
def foldInto (h v : Vector Word 8) : Vector Word 8 := Vector.ofFn fun i => h[i] + v[i]

/-- The recurrence of the schedule (R104), from `W[i-2]`, `W[i-7]`, `W[i-15]`, `W[i-16]`. -/
def expandWord (w2 w7 w15 w16 : Word) : Word := smallSigma1 w2 + w7 + smallSigma0 w15 + w16

/-- The serialisation of a hash state, big-endian, words in state order (R126). -/
def serialise (h : Vector Word 8) : Vector Byte 32 :=
  Vector.ofFn fun n => byteOf h[n.val / 4] (n.val % 4)

/-- One lowercase hexadecimal digit as its ASCII code (R131; the codes are from general knowledge, assumption 17). -/
def hexdigit (v : BitVec 4) : Byte :=
  if v.toNat ≤ 9 then 0x30#8 + v.zeroExtend 8 else 0x61#8 + (v.zeroExtend 8 - 10#8)

end Sys2Proof.Machine
end

