-- ==== Sys2Proof/Machine/Operands.lean ====
section
/-! DEFINITION. The operands of the micro-operations: the padder's functions of the message and its length, the byte LDB
loads, the words WLD and WEX form, the counters. All operands but `len` are implicit (R64, R66 of spec/30_encoding.md). -/

namespace Sys2Proof.Machine

/-- The largest length accepted is `2^61 - 1` bytes; `2^61` and more is refused by INIT (R138, R161). -/
def lengthLimit : Nat := 2 ^ 61

/-- The number of 64-byte blocks of the padded buffer of a message of `L` bytes (R86 of spec/41_padder.md). -/
def blockCount (L : Nat) : Nat := (L + 8) / 64 + 1

/-- The number of zero bytes of the padding, `64*N - L - 9` (R88). -/
def zeroCount (L : Nat) : Nat := 64 * blockCount L - L - 9

/-- `8*L` as the 64-bit length field (R87, R91). -/
def bitLength (L : Nat) : BitVec 64 := BitVec.ofNat 64 (8 * L)

/-- Byte `i` of the padded buffer of `N` blocks of a message of `L` bytes, the four lines of R87 in their order; meant for
`0 <= i < 64*N` and, by R86, `N` the block count of `L`. -/
def paddedByte (msg : Nat → Byte) (L N i : Nat) : Byte :=
  if i < L then msg i
  else if i = L then 0x80
  else if i + 8 < 64 * N then 0x00
  else (bitLength L >>> (8 * (64 * N - 1 - i))).truncate 8

/-- The effective address of the only load, `64*j + k` (R47, R98). -/
def State.byteIndex (s : State) : Nat := 64 * s.j.toNat + s.k.toNat

/-- Whether the position is in the domain R86 and R87 give the padded buffer: `L <= 2^61 - 1` and `i < 64*N`. Every LDB step of
a run is (assumption 11). -/
def State.inPaddedBuffer (s : State) : Bool :=
  decide (s.LEN.toNat < lengthLimit) && decide (s.byteIndex < 64 * s.N.toNat)

/-- The byte LDB loads (R98): `PB(64*j + k)`, reading MSG iff the index is below `LEN`. -/
def State.loadedByte (s : State) : Byte :=
  if s.inPaddedBuffer then paddedByte s.MSG.read s.LEN.toNat s.N.toNat s.byteIndex else Config.freePadByte s.draw

/-- Register `BLK[n]`, for the indices 0 to 63 a rule names. -/
def State.blk (s : State) (n : Nat) : Byte := if h : n < 64 then s.BLK[n] else 0

/-- Register `W[n]`, for the indices 0 to 63 a rule names. -/
def State.w (s : State) (n : Nat) : Word := if h : n < 64 then s.W[n] else 0

/-- The word WLD forms, for `0 <= k <= 15` (R105); the sequencer gives it no other `k` (assumption 12). -/
def State.packedWord (s : State) : Word :=
  if s.k.toNat < 16 then
    be32 (s.blk (4 * s.k.toNat)) (s.blk (4 * s.k.toNat + 1)) (s.blk (4 * s.k.toNat + 2)) (s.blk (4 * s.k.toNat + 3))
  else Config.freeLoadedWord s.draw

/-- The word WEX forms, for `16 <= k <= 63` (R106); the sequencer gives it no other `k` (assumption 12). -/
def State.expandedWord (s : State) : Word :=
  if 16 ≤ s.k.toNat then
    expandWord (s.w (s.k.toNat - 2)) (s.w (s.k.toNat - 7)) (s.w (s.k.toNat - 15)) (s.w (s.k.toNat - 16))
  else Config.freeExpandedWord s.draw

/-- The six-bit counter is an index of a file of sixty-four registers. -/
theorem inner_lt (k : BitVec 6) : k.toNat < 64 := k.isLt

/-- `BLK[k] <- b`. -/
def State.setBlk (s : State) (b : Byte) : State := { s with BLK := s.BLK.set s.k.toNat b (inner_lt s.k) }

/-- `W[k] <- x`. -/
def State.setW (s : State) (x : Word) : State := { s with W := s.W.set s.k.toNat x (inner_lt s.k) }

/-- `j + 1` (R144). It fits 56 bits in every run (R31); elsewhere the rule gives no value (assumption 13). -/
def State.nextJ (s : State) : BitVec 56 :=
  if s.j.toNat + 1 < 2 ^ 56 then s.j + 1 else Config.freeNextJ s.draw

end Sys2Proof.Machine
end

