-- ==== Sys2Proof/Machine/Compressor.lean ====
section
/-! DEFINITION. The meanings of the compressor's micro-operations RIN, RND and FLD (R117, R118, R120 of
spec/44_compressor.md). -/

namespace Sys2Proof.Machine

/-- RIN: `a..h <- H[0..7]` (R117); then RND from round 0 (R142). -/
def execRin (s : State) : Host.Outcome State Fault Refusal :=
  .next { s with V := s.H, k := 0, phase := Phase.rnd }

/-- RND: one round with `K[k]` and `W[k]` (R118); then `k = 0..63` in order, then FLD (R143). -/
def execRnd (s : State) : Host.Outcome State Fault Refusal :=
  .next ({ s with V := round s.V (Rom.roundConstant s.k.toNat) (s.w s.k.toNat) }.nextInner 63 0 Phase.fld)

/-- FLD: `H[i] <- H[i] + V[i]` (R120); then `j <- j + 1`, `k <- 0`, and LDB if `j + 1 < N`, else SER (R144). -/
def execFld (s : State) : Host.Outcome State Fault Refusal :=
  .next { s with
    H := foldInto s.H s.V
    j := s.nextJ
    k := 0
    phase := if s.j.toNat + 1 < s.N.toNat then Phase.ldb else Phase.ser }

end Sys2Proof.Machine
end

