-- ==== Sys2Proof/Machine/Formatter.lean ====
section
/-! DEFINITION. The meaning of the digest formatter's micro-operation SER (R127 of spec/45_digest_formatter.md). -/

namespace Sys2Proof.Machine

/-- SER: `DIGEST <- bytes of H`, big-endian (R127); then DONE, `j` and `k` unchanged (R145). -/
def execSer (s : State) : Host.Outcome State Fault Refusal :=
  .next { s with DIGEST := serialise s.H, phase := Phase.done }

end Sys2Proof.Machine
end

