-- ==== Sys2Proof/Machine/Scheduler.lean ====
section
/-! DEFINITION. The meanings of the message scheduler's micro-operations WLD and WEX (R105, R106 of
spec/43_message_scheduler.md). -/

namespace Sys2Proof.Machine

/-- WLD: `W[k] <- be32(BLK[4k], ..., BLK[4k+3])` (R105); then `k = 0..15` in order, then WEX from 16 (R140). -/
def execWld (s : State) : Host.Outcome State Fault Refusal :=
  .next ((s.setW s.packedWord).nextInner 15 16 Phase.wex)

/-- WEX: `W[k] <- σ1(W[k-2]) + W[k-7] + σ0(W[k-15]) + W[k-16]` (R106); then `k = 16..63` in order, then RIN (R141). -/
def execWex (s : State) : Host.Outcome State Fault Refusal :=
  .next ((s.setW s.expandedWord).nextInner 63 0 Phase.rin)

end Sys2Proof.Machine
end

