-- ==== Sys2Proof/Machine/Sequencer.lean ====
section
/-! DEFINITION. The meanings of the sequencer's own codes: INIT, the resting phases IDLE, DONE and ERROR, and the reserved
codes (R138, R146 of spec/46_sequencer_and_host.md, R69 of spec/30_encoding.md). -/

namespace Sys2Proof.Machine

/-- A step of a resting phase with no command, WAIT: nothing changes (R146). -/
def wait (s : State) : Host.Outcome State Fault Refusal := .next s

/-- IDLE (R146). -/
def execIdle (s : State) : Host.Outcome State Fault Refusal := wait s

/-- DONE (R146). -/
def execDone (s : State) : Host.Outcome State Fault Refusal := wait s

/-- ERROR (R146). -/
def execError (s : State) : Host.Outcome State Fault Refusal := wait s

/-- INIT (R138): the length check before everything else; then `H <- IV`, `N`, `j <- 0`, `k <- 0`, `phase <- LDB`. -/
def execInit (s : State) : Host.Outcome State Fault Refusal :=
  if lengthLimit ≤ s.LEN.toNat then .next (s.raise .lenOverflow)
  else .next { s with
    H := Rom.IV
    N := BitVec.ofNat 56 (blockCount s.LEN.toNat)
    j := 0
    k := 0
    phase := Phase.ldb }

/-- Code 1011, reserved (R69). -/
def execReservedB (_ : State) : Host.Outcome State Fault Refusal := stuck 0xB

/-- Code 1100, reserved (R69). -/
def execReservedC (_ : State) : Host.Outcome State Fault Refusal := stuck 0xC

/-- Code 1101, reserved (R69). -/
def execReservedD (_ : State) : Host.Outcome State Fault Refusal := stuck 0xD

/-- Code 1110, reserved (R69). -/
def execReservedE (_ : State) : Host.Outcome State Fault Refusal := stuck 0xE

/-- Code 1111, reserved (R69). -/
def execReservedF (_ : State) : Host.Outcome State Fault Refusal := stuck 0xF

end Sys2Proof.Machine
end

