-- ==== Sys2Proof/Machine/Splitter.lean ====
section
/-! DEFINITION. The meaning of the block splitter's micro-operation LDB (R98 of spec/42_block_splitter.md). -/

namespace Sys2Proof.Machine

/-- LDB: `BLK[k] <- PB(64*j + k)` (R98); then `k = 0..63` in order, then WLD from 0 (R139). -/
def execLdb (s : State) : Host.Outcome State Fault Refusal :=
  .next ((s.setBlk s.loadedByte).nextInner 63 0 Phase.wld)

end Sys2Proof.Machine
end

