-- ==== Sys2Proof/Machine/HostCommands.lean ====
section
/-! DEFINITION. The core's own step, and the meanings of the host commands RESET, START and NOCMD (R133 to R136 of
spec/46_sequencer_and_host.md). -/

namespace Sys2Proof.Machine

/-- The core's own step: "the core executes the micro-operation whose code is `phase`" in a busy phase, WAIT in a resting
phase (R136 items 3 and 4); a reserved code has none (R69). -/
def coreStep (s : State) : Host.Outcome State Fault Refusal :=
  match s.phase with
  | 0x0#4 => execIdle s
  | 0x1#4 => execInit s
  | 0x2#4 => execLdb s
  | 0x3#4 => execWld s
  | 0x4#4 => execWex s
  | 0x5#4 => execRin s
  | 0x6#4 => execRnd s
  | 0x7#4 => execFld s
  | 0x8#4 => execSer s
  | 0x9#4 => execDone s
  | 0xA#4 => execError s
  | 0xB#4 => execReservedB s
  | 0xC#4 => execReservedC s
  | 0xD#4 => execReservedD s
  | 0xE#4 => execReservedE s
  | _ => execReservedF s

/-- RESET (R133, R181): accepted in every phase, whatever `start` is (R168). -/
def execReset (_start : Bool) (s : State) : Host.Outcome State Fault Refusal := .next s.resetRegisters

/-- START (R134): accepted in a resting phase. In any other it is ignored, and the core takes its own step as if `start` were
0 (R135). -/
def execStart (len : BitVec 64) (s : State) : Host.Outcome State Fault Refusal :=
  if s.resting then .next (s.beginRun len) else coreStep s

/-- No host command: the core takes its own step (R63, R136). -/
def execNocmd (s : State) : Host.Outcome State Fault Refusal := coreStep s

end Sys2Proof.Machine
end

