-- ==== Sys2Proof/Machine/Dispatch.lean ====
section
/-! DEFINITION. One arm per constructor of `Instr`, each a call of its meaning. -/

namespace Sys2Proof.Machine

def exec (i : Instr) (s : State) : Host.Outcome State Fault Refusal :=
  match i with
  | .reset start => Sys2Proof.Machine.execReset start s
  | .start len => Sys2Proof.Machine.execStart len s
  | .nocmd => Sys2Proof.Machine.execNocmd s
  | .idle => Sys2Proof.Machine.execIdle s
  | .init => Sys2Proof.Machine.execInit s
  | .ldb => Sys2Proof.Machine.execLdb s
  | .wld => Sys2Proof.Machine.execWld s
  | .wex => Sys2Proof.Machine.execWex s
  | .rin => Sys2Proof.Machine.execRin s
  | .rnd => Sys2Proof.Machine.execRnd s
  | .fld => Sys2Proof.Machine.execFld s
  | .ser => Sys2Proof.Machine.execSer s
  | .done => Sys2Proof.Machine.execDone s
  | .error => Sys2Proof.Machine.execError s
  | .reservedB => Sys2Proof.Machine.execReservedB s
  | .reservedC => Sys2Proof.Machine.execReservedC s
  | .reservedD => Sys2Proof.Machine.execReservedD s
  | .reservedE => Sys2Proof.Machine.execReservedE s
  | .reservedF => Sys2Proof.Machine.execReservedF s

end Sys2Proof.Machine
end

