-- ==== Sys2Proof/Machine/Fetch.lean ====
section
/-! DEFINITION. What the next step runs: the pins and the phase register are where the core takes its instruction from (R61,
R136). There is no instruction memory (R44, R58). -/

namespace Sys2Proof.Machine

/-- The instruction of the next step, by the priority of R136, R164, R168: `rst`, then `start` in a resting phase, then the
micro-operation whose code is `phase`. -/
def State.fetch (s : State) : Instr :=
  if s.move.rst then .reset s.move.start
  else if s.move.start && s.resting then .start s.move.len
  else decodeUop s.phase

/-- The host command on the pins of the next step (R61, R63). -/
def State.command (s : State) : Instr := decodeHostcmd s.move.rst s.move.start s.move.len

/-- A host command placed as the next step's move, without a write of the host's: bit 0 of `w` on `start`, bit 1 on `rst`, the
bits above on `len`. -/
def State.placeCommand (s : State) (w : Nat) : State :=
  { s with host :=
      { writes := [], rst := w / 2 % 2 == 1, start := w % 2 == 1, len := BitVec.ofNat 64 (w / 4) } :: s.host.tail }

/-- A micro-operation placed as the next step's: its code in `phase`, and no command and no write from the host. -/
def State.placeUop (s : State) (w : Nat) : State :=
  { s with phase := BitVec.ofNat 4 w, host := HostMove.none :: s.host.tail }

/-- A word of the opcode table placed where the core takes its next instruction from (assumptions 8, 9, 22). -/
def State.placeWord (s : State) (nbits w : Nat) : State :=
  match tableFormat nbits with
  | .hostcmd => s.placeCommand w
  | .uop => s.placeUop w

end Sys2Proof.Machine
end

