-- ==== Sys2Proof/Machine/Step.lean ====
section
/-! DEFINITION. One step of the machine (R136 of spec/46_sequencer_and_host.md): the host's writes of its move, then the
instruction the pins and the phase select, as one atomic transition. -/

namespace Sys2Proof.Machine

/-- One step. A host that breaks a duty is refused (U4); otherwise the instruction of `fetch` runs on the state after the
host's writes, and the host's move is spent. -/
def step (s : State) : Host.Outcome State Fault Refusal :=
  match s.hostRefusal with
  | some r => .refused r
  | none =>
    match exec s.afterHostWrites.fetch s.afterHostWrites with
    | .next t => .next t.advance
    | .fault r => .fault r
    | .refused r => .refused r

/-- `s` with a word of the opcode table where the next step takes its instruction from (assumption 22). -/
def State.withFetchWord (s : State) (nbits w : Nat) : State := s.placeWord nbits w

end Sys2Proof.Machine
end

