-- ==== Sys2Proof/Machine/Ports.lean ====
section
/-! DEFINITION. The output ports, as functions of the state a step begins in (R29, R30 of spec/10_state.md, R46 of
spec/20_memory.md, R128 to R131 of spec/45_digest_formatter.md; assumption 23). -/

namespace Sys2Proof.Machine

/-- `msg_re = 1` in exactly the LDB steps whose index is below `LEN` (R46). -/
def State.msgRe (s : State) : Bool := s.fetch == .ldb && decide (s.byteIndex < s.LEN.toNat)

/-- `msg_addr`: the index where a byte is read; unspecified elsewhere (R46, U8; assumption 14). -/
def State.msgAddr (s : State) : BitVec 61 :=
  if s.msgRe && decide (s.byteIndex < 2 ^ 61) then BitVec.ofNat 61 s.byteIndex else Config.freeMsgAddr s.draw

/-- `msg_rdata`: in a step with `msg_re = 1` the byte the host answers in the same step (R29, R45; assumption 20). In any other
step the spec gives the port no value, and it is a free value, the model's choice (assumption 25); no step uses it. -/
def State.msgRdata (s : State) : Byte :=
  if s.msgRe then s.MSG.read s.byteIndex else Config.freeMsgRdata s.draw

/-- Bytes side by side, the first most significant. -/
def joinBytes : List Byte → Nat
  | [] => 0
  | b :: rest => b.toNat * 256 ^ rest.length + joinBytes rest

/-- The 256 bits of `digest`: `DIGEST[0]` in bits 255 to 248 (R128). -/
def digestBits (d : Vector Byte 32) : BitVec 256 := BitVec.ofNat 256 (joinBytes d.toList)

/-- The sixty-four characters `X[0..63]` of `digest_hex`, the high nibble of each byte first (R130). -/
def hexChars (d : Vector Byte 32) : List Byte :=
  d.toList.flatMap fun b : Byte => [hexdigit ((b >>> 4).truncate 4), hexdigit (b.truncate 4)]

/-- The 512 bits of `digest_hex`: `X[0]` in bits 511 to 504 (R130). -/
def hexBits (d : Vector Byte 32) : BitVec 512 := BitVec.ofNat 512 (joinBytes (hexChars d))

/-- The port `digest`, defined only while `done = 1` (R129; assumption 15). -/
def State.digestPort (s : State) : BitVec 256 :=
  if s.done then digestBits s.DIGEST else Config.freeDigestPort s.draw

/-- The port `digest_hex`, present iff `HAS_HEX` (R130; assumption 16), defined only while `done = 1` (R129). -/
def State.hexPort (hasHex : Bool) (s : State) : Option (BitVec 512) :=
  if hasHex then some (if s.done then hexBits s.DIGEST else Config.freeHexPort s.draw) else none

/-- All the output ports of R29. -/
structure Outputs where
  msg_addr : BitVec 61
  msg_re : Bool
  busy : Bool
  done : Bool
  err : Bool
  digest : BitVec 256
  digest_hex : Option (BitVec 512)
  deriving DecidableEq, Repr

/-- What the core shows (R29, R30): nothing else of the state is visible to the host. -/
def State.outputs (s : State) (hasHex : Bool := Config.HAS_HEX) : Outputs where
  msg_addr := s.msgAddr
  msg_re := s.msgRe
  busy := s.busy
  done := s.done
  err := s.err
  digest := s.digestPort
  digest_hex := s.hexPort hasHex

end Sys2Proof.Machine
end

