-- ==== Sys2Proof/Machine/Reference.lean ====
section
/-! DEFINITION. The run as one function, apart from the step machine (R147 of spec/46_sequencer_and_host.md): blocks (R96),
schedule (R104), compression (R116), the fold over blocks (R122), the digest. -/

namespace Sys2Proof.Machine.Reference

/-- Byte `m` of block `j` of the padded buffer of the message `msg` of `L` bytes (R96, R87). -/
def block (msg : Nat → Byte) (L j m : Nat) : Byte := paddedByte msg L (blockCount L) (64 * j + m)

/-- The schedule of a block (R104). -/
def schedule (B : Nat → Byte) : Nat → Word
  | n + 16 => expandWord (schedule B (n + 14)) (schedule B (n + 9)) (schedule B (n + 1)) (schedule B n)
  | n => be32 (B (4 * n)) (B (4 * n + 1)) (B (4 * n + 2)) (B (4 * n + 3))

/-- The working registers before round `t`: `v(0) = Hin`, `v(t+1) = round(v(t), K[t], W[t])` (R116). -/
def rounds (hin : Vector Word 8) (w : Nat → Word) : Nat → Vector Word 8
  | 0 => hin
  | t + 1 => round (rounds hin w t) (Rom.roundConstant t) (w t)

/-- The compression function (R116). -/
def compress (hin : Vector Word 8) (w : Nat → Word) : Vector Word 8 := foldInto hin (rounds hin w 64)

/-- The hash state before block `j`: `H(0) = IV`, `H(j+1) = compress(H(j), schedule(block j))` (R122). -/
def hashState (msg : Nat → Byte) (L : Nat) : Nat → Vector Word 8
  | 0 => Rom.IV
  | j + 1 => compress (hashState msg L j) (schedule (block msg L j))

/-- The digest of a message of `L` bytes (R147). -/
def digest (msg : Nat → Byte) (L : Nat) : Vector Byte 32 := serialise (hashState msg L (blockCount L))

end Sys2Proof.Machine.Reference
end

