-- ==== Sys2Proof/Safety.lean ====
section
/-! DEFINITION. What counts as a safe run, in the terms the claims use: runs of several steps, a host that keeps its duties,
the invariant of the sequencer, and the invariant that ties the registers to the message. -/

namespace Sys2Proof.Machine

/-- `n` steps lead from `s` to `t`, each to a next state. -/
def Steps : Nat → State → State → Prop
  | 0, s, t => s = t
  | n + 1, s, t => ∃ u, step s = .next u ∧ Steps n u t

/-- The outcome of the next step if the instruction it runs is `i`: `i` on the state after the host's writes, the host's move
spent. -/
def State.runOf (s : State) (i : Instr) : Host.Outcome State Fault Refusal :=
  match exec i s.afterHostWrites with
  | .next t => .next t.advance
  | .fault r => .fault r
  | .refused r => .refused r

/-- A host move that gives no RESET and leaves the bytes `MSG[0..L-1]` alone, as the host owes a run on `L` bytes (R186, R147).
It may drive `start` and `len` as it likes (R151). -/
def HostMove.keepsDuty (L : Nat) (m : HostMove) : Prop :=
  m.rst = false ∧ ∀ c ∈ m.writes, L ≤ c.1 ∧ c.1 < Memory.size

/-- A host move that gives no command at all and writes only where MSG has bytes. -/
def HostMove.commandless (m : HostMove) : Prop :=
  m.rst = false ∧ m.start = false ∧ ∀ c ∈ m.writes, c.1 < Memory.size

/-- The next move is an accepted START on `L` bytes: the phase is resting, `{rst, start} = 01`, `len = L`, and the host's writes
before it are bytes of MSG (R134, R185). -/
structure State.Starts (s : State) (L : Nat) : Prop where
  resting : s.resting = true
  noReset : s.move.rst = false
  start : s.move.start = true
  len : s.move.len.toNat = L
  writes : ∀ c ∈ s.move.writes, c.1 < Memory.size

/-- The moves of the host after the next one, `n` of them, keep the duty of a run on `L` bytes. -/
def State.DutyKept (s : State) (L n : Nat) : Prop := ∀ m ∈ s.host.tail.take n, m.keepsDuty L

/-- The host's writes of its next `n` moves, in order. -/
def State.hostWrites (s : State) (n : Nat) : List Host.Cell := (s.host.take n).flatMap HostMove.writes

/-- The message addresses read in the next `n` steps, in order: the values of `msg_addr` in the steps with `msg_re = 1`. -/
def readAddresses : Nat → State → List Nat
  | 0, _ => []
  | n + 1, s =>
    (if s.msgRe then [s.msgAddr.toNat] else []) ++
      match step s with
      | .next t => readAddresses n t
      | .fault _ => []
      | .refused _ => []

/-- Two states at the same place of the same course: the position `(phase, j, k)`, the length, the block count and the counter of
the free values agree. Messages and datapath registers may differ (R194). -/
structure SameCourse (s t : State) : Prop where
  phase : s.phase = t.phase
  j : s.j = t.j
  k : s.k = t.k
  len : s.LEN = t.LEN
  count : s.N = t.N
  draw : s.draw = t.draw

/-- The host drives the same pins in the next step of two states. -/
def SamePins (s t : State) : Prop :=
  s.move.rst = t.move.rst ∧ s.move.start = t.move.start ∧ s.move.len = t.move.len

/-- The value of a lowercase hexadecimal character, as a host decodes it (R132). -/
def hexValue (c : Byte) : Nat := if c.toNat < 0x61 then c.toNat - 0x30 else c.toNat - 0x61 + 10

/-- The invariant of the sequencer: MSG is in canonical form, the phase is one of the eleven (R24, R69), the counters are in
their ranges (R23, R25, R26, R31), a run past INIT has an accepted length, and ERROR is held by an over-long one (R161). -/
structure Inv (s : State) : Prop where
  memoryCanonical : s.MSG.wf = true
  phaseLegal : s.phase.toNat ≤ 0xA
  lengthAccepted : 0x2 ≤ s.phase.toNat → s.phase.toNat ≤ 0x9 → s.LEN.toNat < lengthLimit
  countRight : 0x2 ≤ s.phase.toNat → s.phase.toNat ≤ 0x9 → s.N.toNat = blockCount s.LEN.toNat
  blockInRange : 0x2 ≤ s.phase.toNat → s.phase.toNat ≤ 0x7 → s.j.toNat < s.N.toNat
  blocksDone : 0x8 ≤ s.phase.toNat → s.phase.toNat ≤ 0x9 → s.j = s.N
  wldRange : s.phase = 0x3 → s.k.toNat < 16
  wexRange : s.phase = 0x4 → 16 ≤ s.k.toNat
  innerZero : s.phase = 0x5 ∨ s.phase = 0x7 ∨ s.phase = 0x8 ∨ s.phase = 0x9 → s.k = 0
  errorCause : s.phase = 0xA → lengthLimit ≤ s.LEN.toNat

/-- The block in work, as the reference function has it (R96). -/
def State.currentBlock (s : State) : Nat → Byte := Reference.block s.MSG.read s.LEN.toNat s.j.toNat

/-- The hash state before the block in work, as the reference function has it (R122). -/
def State.hashBefore (s : State) : Vector Word 8 := Reference.hashState s.MSG.read s.LEN.toNat s.j.toNat

/-- The registers hold what the reference function says, as far as the run has come (R99, R107, R121, R122, R127). In DONE the
host may already have changed MSG, so nothing ties DIGEST to it any more but `H`. -/
structure Sound (s : State) : Prop where
  hash : 0x2 ≤ s.phase.toNat → s.phase.toNat ≤ 0x8 → s.H = s.hashBefore
  loading : s.phase = 0x2 → ∀ m, m < s.k.toNat → s.blk m = s.currentBlock m
  loaded : s.phase = 0x3 → ∀ m, m < 64 → s.blk m = s.currentBlock m
  scheduling : s.phase = 0x3 ∨ s.phase = 0x4 →
    ∀ i, i < s.k.toNat → s.w i = Reference.schedule s.currentBlock i
  scheduled : s.phase = 0x5 ∨ s.phase = 0x6 →
    ∀ i, i < 64 → s.w i = Reference.schedule s.currentBlock i
  working : s.phase = 0x6 → s.V = Reference.rounds s.hashBefore (Reference.schedule s.currentBlock) s.k.toNat
  worked : s.phase = 0x7 → s.V = Reference.rounds s.hashBefore (Reference.schedule s.currentBlock) 64
  formatted : s.phase = 0x9 → s.DIGEST = serialise s.H

end Sys2Proof.Machine
end

