-- ==== Sys2Proof/Certificates/Slice0/Obligations.lean ====
section
/-! DEFINITION. The statements for the provers. Each docstring names the rule of spec/ it formalises. Bit patterns, moduli and
the values of `phase` are written out here and not taken from the model's names where a rule prints them. -/

open Sys2Proof Sys2Proof.Machine

/-! Encoding. -/

/-- Decoding the word of any instruction, in its own format, gives the instruction back, with every operand value. -/
def Obligations.DecodeInvertsEncode : Prop :=
  ∀ i : Instr, decodeWord i.format (encode i) = .ok i

/-- A word that decodes is the word of what it decodes to: a micro-operation's in full, a host command's pattern, and the
operand of a START. -/
def Obligations.DecodedWordsReencode : Prop :=
  ∀ (f : Format) (w : Nat) (i : Instr), decodeWord f w = .ok i →
    i.format = f ∧
    (f = .uop → encode i = w) ∧
    (f = .hostcmd → encode i % 4 = w % 4 ∧ ∀ len, i = .start len → len.toNat = w / 4)

/-- The patterns of R63 and R65, each row of the opcode table. -/
def Obligations.TableWordsDecode : Prop :=
  [decodeTableWord 2 0b10, decodeTableWord 2 0b11, decodeTableWord 2 0b01, decodeTableWord 2 0b00] =
    [some (.reset false), some (.reset true), some (.start 0), some .nocmd] ∧
  [decodeTableWord 4 0b0000, decodeTableWord 4 0b0001, decodeTableWord 4 0b0010, decodeTableWord 4 0b0011] =
    [some .idle, some .init, some .ldb, some .wld] ∧
  [decodeTableWord 4 0b0100, decodeTableWord 4 0b0101, decodeTableWord 4 0b0110, decodeTableWord 4 0b0111] =
    [some .wex, some .rin, some .rnd, some .fld] ∧
  [decodeTableWord 4 0b1000, decodeTableWord 4 0b1001, decodeTableWord 4 0b1010] =
    [some .ser, some .done, some .error]

/-- R69: a reserved code has no step, as an instruction and in the phase register; no step sets one; reset sets 0. -/
def Obligations.ReservedCodesAreStuck : Prop :=
  (∀ s : State,
    exec .reservedB s = .fault (.stuckReservedPhase 0xB) ∧ exec .reservedC s = .fault (.stuckReservedPhase 0xC) ∧
    exec .reservedD s = .fault (.stuckReservedPhase 0xD) ∧ exec .reservedE s = .fault (.stuckReservedPhase 0xE) ∧
    exec .reservedF s = .fault (.stuckReservedPhase 0xF)) ∧
  (∀ s : State, 0xB ≤ s.phase.toNat → s.move.rst = false → s.hostRefusal = none →
    step s = .fault (.stuckReservedPhase s.phase)) ∧
  (∀ s t : State, s.phase.toNat ≤ 0xA → step s = .next t → t.phase.toNat ≤ 0xA) ∧
  State.reset.phase = 0

/-! The step. -/

/-- R136, R164: `rst` first, then `start` in a resting phase, otherwise the micro-operation whose code is `phase`. -/
def Obligations.StepSelectsByPriority : Prop :=
  ∀ s : State, s.hostRefusal = none →
    (s.move.rst = true → step s = s.runOf (.reset s.move.start)) ∧
    (s.move.rst = false → s.move.start = true → s.phase = 0x0 ∨ s.phase = 0x9 ∨ s.phase = 0xA →
      step s = s.runOf (.start s.move.len)) ∧
    (s.move.rst = false → ¬ (s.move.start = true ∧ (s.phase = 0x0 ∨ s.phase = 0x9 ∨ s.phase = 0xA)) →
      step s = s.runOf (decodeUop s.phase))

/-- R63 read with R135 and R136: whatever the phase, the step is the outcome of the host command on the pins. -/
def Obligations.StepIsOutcomeOfPins : Prop :=
  ∀ s : State, s.hostRefusal = none → step s = s.runOf s.command

/-- A word placed where the next step takes its instruction from is the instruction the step runs (log entry 22). -/
def Obligations.PlacedWordRunsNext : Prop :=
  ∀ (s : State) (nbits w : Nat) (i : Instr), decodeTableWord nbits w = some i →
    step (s.withFetchWord nbits w) = (s.withFetchWord nbits w).runOf i

/-- R136: with no host command the core executes the micro-operation whose code is `phase`, and has a step in each of the eleven
phases. -/
def Obligations.NoCommandRunsMicroOperation : Prop :=
  ∀ s : State, exec .nocmd s = exec (decodeUop s.phase) s ∧
    (s.phase.toNat ≤ 0xA → ∃ t, exec .nocmd s = .next t ∧ t.MSG = s.MSG ∧ t.LEN = s.LEN)

/-- R134: START in a resting phase writes `LEN` and `phase` and nothing else; `busy` rises, `done` and `err` are 0. -/
def Obligations.StartBeginsRun : Prop :=
  ∀ (s : State) (len : BitVec 64), s.phase = 0x0 ∨ s.phase = 0x9 ∨ s.phase = 0xA →
    ∃ t, exec (.start len) s = .next t ∧ t = { s with LEN := len, phase := 0x1 } ∧
      t.busy = true ∧ t.done = false ∧ t.err = false

/-- R135: START while `busy = 1` is ignored; the step is the same whatever `start` and `len` are, and it is the core's own. -/
def Obligations.BusyStartIsIgnored : Prop :=
  (∀ (s : State) (m : HostMove) (rest : List HostMove) (len : BitVec 64), s.busy = true → m.rst = false →
    step { s with host := { m with start := true } :: rest } =
      step { s with host := { m with start := false, len := len } :: rest }) ∧
  (∀ (s : State) (len : BitVec 64), s.busy = true →
    ∃ t, exec (.start len) s = .next t ∧ exec (decodeUop s.phase) s = .next t ∧ t.LEN = s.LEN)

/-- R133: RESET answers in every state, goes to IDLE with the three flags 0, and leaves MSG alone. Every other register is
unspecified, so nothing is said of it. -/
def Obligations.ResetGoesIdle : Prop :=
  ∀ (s : State) (b : Bool), ∃ t, exec (.reset b) s = .next t ∧ t.phase = 0x0 ∧
    t.busy = false ∧ t.done = false ∧ t.err = false ∧ (∀ a, t.MSG.read a = s.MSG.read a) ∧ t.host = s.host

/-- R168, R182: a step with `rst = 1` is a RESET whatever `start`, `len` and `phase` are, a reserved phase among them; no message
byte is read in it, and none of the three flags is up after it. -/
def Obligations.ResetWinsOverEverything : Prop :=
  ∀ s : State, s.move.rst = true → s.hostRefusal = none →
    s.msgRe = false ∧ ∃ t, step s = .next t ∧ t.phase = 0x0 ∧ t.busy = false ∧ t.done = false ∧ t.err = false ∧
      t.msgRe = false ∧ (∀ a, t.MSG.read a = s.afterHostWrites.MSG.read a) ∧ t.host = s.host.tail

/-- R146, R65: IDLE, DONE and ERROR change nothing. -/
def Obligations.RestingCodesWait : Prop :=
  ∀ s : State, exec .idle s = .next s ∧ exec .done s = .next s ∧ exec .error s = .next s ∧
    decodeUop 0b0000 = .idle ∧ decodeUop 0b1001 = .done ∧ decodeUop 0b1010 = .error

/-- R146: in a resting phase, any number of steps with no command keep every register, every flag and the output ports that
have a value there; no message byte is read. -/
def Obligations.RestingPhaseHolds : Prop :=
  ∀ (n : Nat) (s : State), s.phase = 0x0 ∨ s.phase = 0x9 ∨ s.phase = 0xA →
    (∀ m ∈ s.host.take n, m.commandless) →
    ∃ t, Steps n s t ∧
      t = { s with MSG := s.MSG.writeAll (s.hostWrites n), host := s.host.drop n, draw := s.draw + n } ∧
      ((∀ m ∈ s.host.take n, m.writes = []) → t.MSG = s.MSG) ∧
      t.busy = false ∧ t.done = s.done ∧ t.err = s.err ∧ s.msgRe = false ∧ t.msgRe = false ∧
      (s.done = true → t.digestPort = s.digestPort ∧ t.hexPort true = s.hexPort true)

/-! The micro-operations: the whole next state of each. -/

/-- R138, R161: the length check first; on an over-long length nothing but `phase` is written; otherwise `H <- IV`, `N`, `j`, `k`
and `phase`. The step reads no message byte. -/
def Obligations.InitChecksThenInitialises : Prop :=
  decodeUop 0b0001 = .init ∧
  (∀ s : State, s.phase = 0x1 → s.msgRe = false) ∧
  (∀ s : State, 2 ^ 61 ≤ s.LEN.toNat →
    ∃ t, exec .init s = .next t ∧ t = { s with phase := 0xA } ∧ t.busy = false ∧ t.done = false ∧ t.err = true) ∧
  (∀ s : State, s.LEN.toNat < 2 ^ 61 →
    ∃ n : BitVec 56, n.toNat = (s.LEN.toNat + 8) / 64 + 1 ∧
      exec .init s = .next { s with
        H := #v[0x6a09e667, 0xbb67ae85, 0x3c6ef372, 0xa54ff53a, 0x510e527f, 0x9b05688c, 0x1f83d9ab, 0x5be0cd19]
        N := n, j := 0, k := 0, phase := 0x2 })

/-- R98, R139, R87: LDB writes one byte of `BLK` and the position and nothing else. In the padded buffer of an accepted length
the byte is the message byte, `0x80`, `0x00` or a byte of the big-endian bit length. The step reads the message iff the index
is below `LEN`. Outside the padded buffer, where no run is, the byte is unconstrained (log entry 11). -/
def Obligations.LdbLoadsPaddedByte : Prop :=
  decodeUop 0b0010 = .ldb ∧
  (∀ s : State, s.fetch = .ldb →
    (s.msgRe = true ↔ 64 * s.j.toNat + s.k.toNat < s.LEN.toNat) ∧
    (s.msgRe = true → s.LEN.toNat < 2 ^ 61 → s.msgAddr.toNat = 64 * s.j.toNat + s.k.toNat)) ∧
  ∀ s : State, ∃ b : Byte,
    exec .ldb s = .next { s with
      BLK := s.BLK.set s.k.toNat b (inner_lt s.k)
      k := if s.k.toNat < 63 then s.k + 1 else 0
      phase := if s.k.toNat < 63 then s.phase else 0x3 } ∧
    ∀ i : Nat, i = 64 * s.j.toNat + s.k.toNat → s.LEN.toNat < 2 ^ 61 → i < 64 * s.N.toNat →
      (i < s.LEN.toNat → b = s.MSG.read i) ∧
      (i = s.LEN.toNat → b = 0x80) ∧
      (s.LEN.toNat < i → i < 64 * s.N.toNat - 8 → b = 0x00) ∧
      (s.LEN.toNat < i → 64 * s.N.toNat - 8 ≤ i →
        b.toNat = 8 * s.LEN.toNat / 256 ^ (64 * s.N.toNat - 1 - i) % 256)

/-- R105, R140: WLD writes one word of `W` and the position and nothing else; for `k = 0..15` the word's four bytes, most
significant first, are `BLK[4k]` to `BLK[4k+3]`; for other `k`, which no run has, the word is unconstrained (log entry 12). -/
def Obligations.WldPacksBigEndian : Prop :=
  decodeUop 0b0011 = .wld ∧
  ∀ s : State, ∃ w : Word,
    exec .wld s = .next { s with
      W := s.W.set s.k.toNat w (inner_lt s.k)
      k := if s.k.toNat < 15 then s.k + 1 else 16
      phase := if s.k.toNat < 15 then s.phase else 0x4 } ∧
    (s.k.toNat ≤ 15 → ∀ m, m < 4 → w.toNat / 256 ^ (3 - m) % 256 = (s.blk (4 * s.k.toNat + m)).toNat)

/-- R106, R141: WEX writes one word of `W` and the position and nothing else; for `k = 16..63` the word is the four-term sum
modulo 2^32; for other `k`, which no run has, the word is unconstrained (log entry 12). -/
def Obligations.WexExpandsModulo : Prop :=
  decodeUop 0b0100 = .wex ∧
  ∀ s : State, ∃ w : Word,
    exec .wex s = .next { s with
      W := s.W.set s.k.toNat w (inner_lt s.k)
      k := if s.k.toNat < 63 then s.k + 1 else 0
      phase := if s.k.toNat < 63 then s.phase else 0x5 } ∧
    (16 ≤ s.k.toNat →
      w.toNat = ((smallSigma1 (s.w (s.k.toNat - 2))).toNat + (s.w (s.k.toNat - 7)).toNat +
        (smallSigma0 (s.w (s.k.toNat - 15))).toNat + (s.w (s.k.toNat - 16)).toNat) % 2 ^ 32)

/-- R117, R142: RIN copies `H` to `a..h` and changes nothing else but the position. -/
def Obligations.RinCopiesHashState : Prop :=
  decodeUop 0b0101 = .rin ∧ ∀ s : State, exec .rin s = .next { s with V := s.H, k := 0, phase := 0x6 }

/-- R118, R115, R143: RND writes `a..h` and the position and nothing else: the shift, and the two sums modulo 2^32. -/
def Obligations.RndRunsOneRound : Prop :=
  decodeUop 0b0110 = .rnd ∧
  ∀ s : State, ∃ v : Vector Word 8,
    exec .rnd s = .next { s with
      V := v
      k := if s.k.toNat < 63 then s.k + 1 else 0
      phase := if s.k.toNat < 63 then s.phase else 0x7 } ∧
    ∀ T1 T2 : Nat,
      T1 = s.V[7].toNat + (bigSigma1 s.V[4]).toNat + (ch s.V[4] s.V[5] s.V[6]).toNat +
        (Rom.roundConstant s.k.toNat).toNat + (s.w s.k.toNat).toNat →
      T2 = (bigSigma0 s.V[0]).toNat + (maj s.V[0] s.V[1] s.V[2]).toNat →
      v[0].toNat = (T1 + T2) % 2 ^ 32 ∧ v[1] = s.V[0] ∧ v[2] = s.V[1] ∧ v[3] = s.V[2] ∧
      v[4].toNat = (s.V[3].toNat + T1) % 2 ^ 32 ∧ v[5] = s.V[4] ∧ v[6] = s.V[5] ∧ v[7] = s.V[6]

/-- R120, R144: FLD writes `H`, `j`, `k`, `phase` and nothing else: eight independent sums modulo 2^32; `j + 1` (which fits in
every run, R31; elsewhere unconstrained, log entry 13); LDB if there is a next block, else SER. -/
def Obligations.FldFoldsAndAdvances : Prop :=
  decodeUop 0b0111 = .fld ∧
  ∀ s : State, ∃ (h : Vector Word 8) (j' : BitVec 56),
    exec .fld s = .next { s with
      H := h
      j := j'
      k := 0
      phase := if s.j.toNat + 1 < s.N.toNat then 0x2 else 0x8 } ∧
    (∀ (i : Nat) (hi : i < 8), h[i].toNat = (s.H[i].toNat + s.V[i].toNat) % 2 ^ 32) ∧
    (s.j.toNat + 1 < 2 ^ 56 → j'.toNat = s.j.toNat + 1)

/-- R127, R145: SER writes `DIGEST` and `phase` and nothing else: byte `4*i + m` is byte `m` of `H[i]`, the most significant
first. `done` rises. -/
def Obligations.SerSerialisesBigEndian : Prop :=
  decodeUop 0b1000 = .ser ∧
  ∀ s : State, ∃ (d : Vector Byte 32) (t : State),
    exec .ser s = .next t ∧ t = { s with DIGEST := d, phase := 0x9 } ∧ t.done = true ∧
    ∀ (i m : Nat) (hi : i < 8) (hm : m < 4), d[4 * i + m].toNat = s.H[i].toNat / 256 ^ (3 - m) % 256

/-! What no instruction does, and what only some do. -/

/-- R41, R47, R57: the core never writes the message memory; and it takes no move of the host's. -/
def Obligations.NoInstructionWritesMessage : Prop :=
  ∀ (i : Instr) (s t : State), exec i s = .next t →
    (∀ a, t.MSG.read a = s.MSG.read a) ∧ t.host = s.host ∧ t.draw = s.draw

/-- Who writes each register in a step that is no RESET (R14 to R18, R22, R23, R25, R26). -/
def Obligations.RegisterWriters : Prop :=
  ∀ s t : State, step s = .next t → s.move.rst = false →
    (t.H ≠ s.H → s.phase = 0x1 ∨ s.phase = 0x7) ∧
    (t.V ≠ s.V → s.phase = 0x5 ∨ s.phase = 0x6) ∧
    (t.W ≠ s.W → s.phase = 0x3 ∨ s.phase = 0x4) ∧
    (t.BLK ≠ s.BLK → s.phase = 0x2) ∧
    (t.DIGEST ≠ s.DIGEST → s.phase = 0x8) ∧
    (t.LEN ≠ s.LEN → s.resting = true ∧ s.move.start = true ∧ t.LEN = s.move.len) ∧
    (t.N ≠ s.N → s.phase = 0x1) ∧
    (t.j ≠ s.j → s.phase = 0x1 ∨ s.phase = 0x7) ∧
    (t.k ≠ s.k → 0x1 ≤ s.phase.toNat ∧ s.phase.toNat ≤ 0x7)

/-- R28: exactly one of IDLE, `busy`, `done`, `err` holds, and each flag is set and cleared by the events of its table alone. -/
def Obligations.FlagsChangeByTheirEvents : Prop :=
  (∀ s : State, s.phase.toNat ≤ 0xA →
    (if s.phase = 0x0 then 1 else 0) + s.busy.toNat + s.done.toNat + s.err.toNat = 1) ∧
  ∀ s t : State, s.phase.toNat ≤ 0xA → step s = .next t →
    (s.busy = false → t.busy = true → s.fetch = .start s.move.len) ∧
    (s.busy = true → t.busy = false →
      s.fetch = .ser ∨ (s.fetch = .init ∧ 2 ^ 61 ≤ s.LEN.toNat) ∨ s.fetch = .reset s.move.start) ∧
    (s.done = false → t.done = true → s.fetch = .ser) ∧
    (s.done = true → t.done = false → s.fetch = .reset s.move.start ∨ s.fetch = .start s.move.len) ∧
    (s.err = false → t.err = true → s.fetch = .init ∧ 2 ^ 61 ≤ s.LEN.toNat) ∧
    (s.err = true → t.err = false → s.fetch = .reset s.move.start ∨ s.fetch = .start s.move.len)

/-- R166: ERROR is left only by an accepted START, which begins a run with the new length, or by RESET; any other step of a host
that keeps its duty leaves every register as it is. -/
def Obligations.ErrorLeftByStartOrReset : Prop :=
  ∀ s : State, s.phase = 0xA → s.hostRefusal = none →
    ∃ t, step s = .next t ∧
      ((s.move.rst = true ∧ t.phase = 0x0 ∧ t.err = false) ∨
       (s.move.rst = false ∧ s.move.start = true ∧
         t = { s.afterHostWrites with LEN := s.move.len, phase := 0x1, host := s.host.tail, draw := s.draw + 1 }) ∨
       (s.move.rst = false ∧ s.move.start = false ∧
         t = { s.afterHostWrites with host := s.host.tail, draw := s.draw + 1 }))

/-- R161, R165: a START with a length of `2^61` or more ends in ERROR two steps later, with no register written but `LEN` and
`phase`, and no message byte read. The message memory is as the host left it at START: its duty leaves it no later write. -/
def Obligations.OverlongRunEndsInError : Prop :=
  ∀ (s : State) (L : Nat), s.Starts L → 2 ^ 61 ≤ L → s.DutyKept L 1 →
    readAddresses 2 s = [] ∧
    ∃ t, Steps 2 s t ∧ t.err = true ∧ t.busy = false ∧ t.done = false ∧
      t = { s.afterHostWrites with LEN := s.move.len, phase := 0xA, host := s.host.drop 2, draw := s.draw + 2 }

/-! The loops of a block. -/

/-- R99: after the 64 LDB steps of block `j`, `BLK[k] = PB(64*j + k)` for every `k`; nothing else but the position has changed.
The message memory is as the host's own writes leave it, the message as it was.
And no step but an LDB step writes `BLK` (RESET apart, log entry 2). -/
def Obligations.LoadFillsBlockBuffer : Prop :=
  (∀ s t : State, step s = .next t → s.move.rst = false → t.BLK ≠ s.BLK → s.phase = 0x2) ∧
  ∀ s : State, s.MSG.wf = true → s.phase = 0x2 → s.k = 0 → s.LEN.toNat < 2 ^ 61 → s.j.toNat < s.N.toNat →
    (∀ m ∈ s.host.take 64, m.keepsDuty s.LEN.toNat) →
    ∃ t, Steps 64 s t ∧
      (∀ m, m < 64 → t.blk m = paddedByte s.MSG.read s.LEN.toNat s.N.toNat (64 * s.j.toNat + m)) ∧
      t.MSG.wf = true ∧ (∀ a, a < s.LEN.toNat → t.MSG.read a = s.MSG.read a) ∧
      t = { s with
        BLK := t.BLK, MSG := s.MSG.writeAll (s.hostWrites 64), phase := 0x3, k := 0
        host := s.host.drop 64, draw := s.draw + 64 }

/-- R107: after the 16 WLD and 48 WEX steps of a block, `W` is the schedule of R104 for `BLK`; nothing else but the position has
changed. The message memory is as the host's own writes leave it, the message as it was. -/
def Obligations.ScheduleIsComputed : Prop :=
  ∀ s : State, s.phase = 0x3 → s.k = 0 → (∀ m ∈ s.host.take 64, m.keepsDuty s.LEN.toNat) →
    ∃ t, Steps 64 s t ∧
      (∀ i, i < 64 → t.w i = Reference.schedule s.blk i) ∧
      (s.MSG.wf = true → t.MSG.wf = true ∧ ∀ a, a < s.LEN.toNat → t.MSG.read a = s.MSG.read a) ∧
      t = { s with
        W := t.W, MSG := s.MSG.writeAll (s.hostWrites 64), phase := 0x5, k := 0
        host := s.host.drop 64, draw := s.draw + 64 }

/-- R121: after RIN, 64 RND and FLD, `H` is `compress(Hbefore, W)`; the block counter has gone on, and the next block is loaded or
the digest formed. `H` is written by the last of these steps alone. The message memory is as the host's own writes leave it,
the message as it was. -/
def Obligations.CompressionIsComputed : Prop :=
  ∀ s : State, s.phase = 0x5 → s.j.toNat < s.N.toNat → (∀ m ∈ s.host.take 66, m.keepsDuty s.LEN.toNat) →
    ∃ t, Steps 66 s t ∧
      t.H = Reference.compress s.H s.w ∧ t.j.toNat = s.j.toNat + 1 ∧
      t.phase = (if s.j.toNat + 1 < s.N.toNat then 0x2 else 0x8) ∧
      (s.MSG.wf = true → t.MSG.wf = true ∧ ∀ a, a < s.LEN.toNat → t.MSG.read a = s.MSG.read a) ∧
      t = { s with
        H := t.H, V := t.V, MSG := s.MSG.writeAll (s.hostWrites 66), phase := t.phase, j := t.j, k := 0
        host := s.host.drop 66, draw := s.draw + 66 } ∧
      ∀ (n : Nat) (u : State), n < 66 → Steps n s u → u.H = s.H

/-! The run as a whole. -/

/-- R147: an accepted START on `L < 2^61` bytes is followed by exactly `194*N + 2` further steps to DONE, busy all the while,
with the digest of the message in `DIGEST` and on the port. -/
def Obligations.RunComputesDigest : Prop :=
  ∀ (s : State) (L : Nat), s.MSG.wf = true → s.Starts L → L < 2 ^ 61 → s.DutyKept L (194 * blockCount L + 2) →
    (∃ t, Steps (194 * blockCount L + 3) s t ∧ t.phase = 0x9 ∧ t.done = true ∧
      t.DIGEST = Reference.digest s.afterHostWrites.MSG.read L ∧
      t.digestPort = digestBits (Reference.digest s.afterHostWrites.MSG.read L)) ∧
    (∀ (n : Nat) (u : State), 0 < n → n < 194 * blockCount L + 3 → Steps n s u → u.busy = true)

/-- R33: two runs on the same message, begun in any two resting states, both reach DONE, with the same digest: nothing an earlier run
left in a register matters. -/
def Obligations.RunsOweNothingToThePast : Prop :=
  ∀ (s s' : State) (L : Nat), s.MSG.wf = true → s'.MSG.wf = true → s.Starts L → s'.Starts L → L < 2 ^ 61 →
    s.DutyKept L (194 * blockCount L + 2) → s'.DutyKept L (194 * blockCount L + 2) →
    (∀ a, a < L → s.afterHostWrites.MSG.read a = s'.afterHostWrites.MSG.read a) →
    ∃ t t', Steps (194 * blockCount L + 3) s t ∧ Steps (194 * blockCount L + 3) s' t' ∧
      t.done = true ∧ t'.done = true ∧ t.DIGEST = t'.DIGEST ∧ t.digestPort = t'.digestPort ∧ t.hexPort true = t'.hexPort true

/-- R46: a message byte is read in exactly the LDB steps whose index `64*j + k` is below `LEN`, at that address; so a run on a
message of `L` bytes reads the addresses `0, 1, ..., L-1` in that order, each once, and nothing else. -/
def Obligations.MessageReadInOrderOnce : Prop :=
  (∀ s : State,
    (s.msgRe = true ↔ s.fetch = .ldb ∧ 64 * s.j.toNat + s.k.toNat < s.LEN.toNat) ∧
    (s.msgRe = true → s.LEN.toNat < 2 ^ 61 →
      s.msgAddr.toNat = 64 * s.j.toNat + s.k.toNat ∧ s.msgRdata = s.MSG.read (64 * s.j.toNat + s.k.toNat))) ∧
  ∀ (s : State) (L : Nat), s.MSG.wf = true → s.Starts L → L < 2 ^ 61 → s.DutyKept L (194 * blockCount L + 2) →
    readAddresses (194 * blockCount L + 3) s = List.range L

/-- R194: the course of a run and the message port depend on `L` and the pins only, never on the message bytes or the datapath
registers. -/
def Obligations.CourseDependsOnLengthOnly : Prop :=
  ∀ s s' t t' : State, SameCourse s s' → SamePins s s' → step s = .next t → step s' = .next t' →
    SameCourse t t' ∧ s.msgRe = s'.msgRe ∧ s.msgAddr = s'.msgAddr

/-! Invariants. -/

/-- The invariants hold in the state after reset. The register values there are the model's (log entry 1); no conjunct of the
invariants speaks of one in IDLE. -/
def Obligations.InvariantsHoldAtReset : Prop := Inv State.reset ∧ Sound State.reset

/-- Every step keeps the invariant of the sequencer: the canonical memory, the legal phases, the ranges of the counters. -/
def Obligations.EveryStepKeepsInv : Prop := ∀ s t : State, Inv s → step s = .next t → Inv t

/-- Every step keeps the registers in agreement with the reference function of the message (R99, R107, R121, R122, R127). -/
def Obligations.EveryStepKeepsSound : Prop := ∀ s t : State, Inv s → Sound s → step s = .next t → Sound t

/-- R162, R152: in a state that meets the invariant no step is a fault of the model, and the step of a host that keeps its duty
answers a next state. -/
def Obligations.NoStepIsStuck : Prop :=
  ∀ s : State, Inv s →
    (∀ f : Fault, step s ≠ .fault f) ∧ (s.hostRefusal = none → ∃ t, step s = .next t)

/-- R31: no counter wraps. `k` counts up inside a loop, and only from below the loop's last value (63, or 15 in WLD); at the last
value the rule that ends the loop sets it to its start value and leaves the phase; INIT, RIN and FLD set it to 0; no other step
changes it. -/
def Obligations.CountersNeverWrap : Prop :=
  ∀ s t : State, Inv s → s.move.rst = false → step s = .next t →
    (s.phase = 0x2 ∨ s.phase = 0x4 ∨ s.phase = 0x6 →
      (s.k.toNat < 63 ∧ t.k.toNat = s.k.toNat + 1 ∧ t.phase = s.phase) ∨
      (s.k.toNat = 63 ∧ t.k = 0 ∧ t.phase.toNat = s.phase.toNat + 1)) ∧
    (s.phase = 0x3 →
      (s.k.toNat < 15 ∧ t.k.toNat = s.k.toNat + 1 ∧ t.phase = 0x3) ∨ (s.k.toNat = 15 ∧ t.k = 16 ∧ t.phase = 0x4)) ∧
    (s.phase = 0x1 → t.k = 0 ∨ (t.k = s.k ∧ t.phase = 0xA)) ∧
    (s.phase = 0x5 ∨ s.phase = 0x7 → t.k = 0) ∧
    (s.phase = 0x0 ∨ 0x8 ≤ s.phase.toNat → t.k = s.k) ∧
    (t.j = s.j ∨ (s.phase = 0x1 ∧ t.j = 0) ∨
      (s.phase = 0x7 ∧ t.j.toNat = s.j.toNat + 1 ∧ t.j.toNat ≤ s.N.toNat ∧ s.N.toNat ≤ 2 ^ 55 + 1)) ∧
    (s.phase = 0x2 → s.byteIndex ≤ 64 * s.N.toNat - 1 ∧ 64 * s.N.toNat - 1 ≤ 2 ^ 61 + 63 ∧
      8 * s.LEN.toNat ≤ 2 ^ 64 - 8) ∧
    (s.msgRe = true → s.msgAddr.toNat = 64 * s.j.toNat + s.k.toNat ∧ s.msgAddr.toNat < s.LEN.toNat)

/-- R186 with U4: while `busy = 1` no step changes a byte of `MSG[0..L-1]`, because the model has no step of a host that does
(log entry 6). -/
def Obligations.MessageStableWhileBusy : Prop :=
  (∀ s t : State, s.MSG.wf = true → s.busy = true → step s = .next t →
    ∀ a, a < s.LEN.toNat → t.MSG.read a = s.MSG.read a) ∧
  (∀ (s : State) (c : Host.Cell), s.busy = true → c ∈ s.move.writes → c.1 < s.LEN.toNat → c.2 ≠ s.MSG.read c.1 →
    ∃ r, step s = .refused r)

/-- Equal memories are equal data: two canonical message memories that read alike everywhere are the same list. -/
def Obligations.CanonicalMemoryIsUnique : Prop :=
  ∀ m m' : Memory, m.wf = true → m'.wf = true → (∀ a, m.read a = m'.read a) → m = m'

/-! The functions of the datapath. -/

/-- R78: bit `i` of `rotr(x, n)` is bit `(i + n) mod 32` of `x`. R79: `x >> n` is `floor(x / 2^n)`. -/
def Obligations.RotationsAndShifts : Prop :=
  (∀ (x : Word) (n i : Nat), 1 ≤ n → n ≤ 31 → i < 32 → (rotr x n).getLsbD i = x.getLsbD ((i + n) % 32)) ∧
  (∀ (x : Word) (n : Nat), (shr x n).toNat = x.toNat / 2 ^ n)

/-- R81: `be32` puts its four bytes most significant first, and taking the bytes of a word is its inverse, both ways. -/
def Obligations.WordsAndBytesConvert : Prop :=
  (∀ b0 b1 b2 b3 : Byte,
    (be32 b0 b1 b2 b3).toNat = b0.toNat * 2 ^ 24 + b1.toNat * 2 ^ 16 + b2.toNat * 2 ^ 8 + b3.toNat ∧
    byteOf (be32 b0 b1 b2 b3) 0 = b0 ∧ byteOf (be32 b0 b1 b2 b3) 1 = b1 ∧
    byteOf (be32 b0 b1 b2 b3) 2 = b2 ∧ byteOf (be32 b0 b1 b2 b3) 3 = b3) ∧
  (∀ w : Word, be32 (byteOf w 0) (byteOf w 1) (byteOf w 2) (byteOf w 3) = w)

/-- R101, R102, R103: the small sigmas bit by bit: two rotations and a shift that fills with zeros. -/
def Obligations.SmallSigmasByBits : Prop :=
  ∀ (x : Word) (i : Nat), i < 32 →
    (smallSigma0 x).getLsbD i =
      ((x.getLsbD ((i + 7) % 32) ^^ x.getLsbD ((i + 18) % 32)) ^^ (decide (i + 3 < 32) && x.getLsbD (i + 3))) ∧
    (smallSigma1 x).getLsbD i =
      ((x.getLsbD ((i + 17) % 32) ^^ x.getLsbD ((i + 19) % 32)) ^^ (decide (i + 10 < 32) && x.getLsbD (i + 10)))

/-- R111, R112: the capital sigmas bit by bit: three rotations. -/
def Obligations.BigSigmasByBits : Prop :=
  ∀ (x : Word) (i : Nat), i < 32 →
    (bigSigma0 x).getLsbD i =
      ((x.getLsbD ((i + 2) % 32) ^^ x.getLsbD ((i + 13) % 32)) ^^ x.getLsbD ((i + 22) % 32)) ∧
    (bigSigma1 x).getLsbD i =
      ((x.getLsbD ((i + 6) % 32) ^^ x.getLsbD ((i + 11) % 32)) ^^ x.getLsbD ((i + 25) % 32))

/-- R113: a bit of `Ch` is `y`'s where `x` has 1 and `z`'s where `x` has 0. R114: a bit of `Maj` is 1 iff at least two of the
three are. -/
def Obligations.ChooseAndMajority : Prop :=
  ∀ (x y z : Word) (i : Nat), i < 32 →
    (ch x y z).getLsbD i = (if x.getLsbD i then y.getLsbD i else z.getLsbD i) ∧
    ((maj x y z).getLsbD i = true ↔
      2 ≤ (x.getLsbD i).toNat + (y.getLsbD i).toNat + (z.getLsbD i).toNat)

/-- R19, R20: `IV` holds the first 32 bits of the fractional parts of the square roots of the first eight primes, and `K` those
of the cube roots of the first sixty-four, each at the prime's own place. -/
def Obligations.ConstantsAreRootsOfPrimes : Prop :=
  (∀ (p i : Nat) (hi : i < 8), p.Prime → i = Nat.count Nat.Prime p →
    ∃ r : Nat, r ^ 2 ≤ p * 2 ^ 64 ∧ p * 2 ^ 64 < (r + 1) ^ 2 ∧ Rom.IV[i] = BitVec.ofNat 32 r) ∧
  (∀ p t : Nat, t < 64 → p.Prime → t = Nat.count Nat.Prime p →
    ∃ r : Nat, r ^ 3 ≤ p * 2 ^ 96 ∧ p * 2 ^ 96 < (r + 1) ^ 3 ∧ Rom.roundConstant t = BitVec.ofNat 32 r)

/-! The padder. -/

/-- R86: `N` is the least number of 64-byte blocks that hold the message, the `0x80` byte and the length field. -/
def Obligations.BlockCountIsLeast : Prop :=
  ∀ L : Nat, L + 9 ≤ 64 * blockCount L ∧ (∀ n : Nat, L + 9 ≤ 64 * n → blockCount L ≤ n) ∧
    (L < 2 ^ 61 → blockCount L ≤ 2 ^ 55 + 1)

/-- R87, R88: the padded buffer is the message, one `0x80`, the least number of zero bytes, and the bit length in eight
bytes, big-endian. -/
def Obligations.PaddedBufferLayout : Prop :=
  ∀ (msg : Nat → Byte) (L N : Nat), L < 2 ^ 61 → N = blockCount L →
    64 * N = L + 1 + zeroCount L + 8 ∧ zeroCount L ≤ 63 ∧
    (∀ i, i < L → paddedByte msg L N i = msg i) ∧
    paddedByte msg L N L = 0x80 ∧
    (∀ i, L < i → i ≤ L + zeroCount L → paddedByte msg L N i = 0x00) ∧
    joinBytes ((List.range 8).map fun m => paddedByte msg L N (64 * N - 8 + m)) = 8 * L

/-- R89: two messages of different lengths or contents never share a padded buffer. -/
def Obligations.PaddingIsInjective : Prop :=
  ∀ (msg msg' : Nat → Byte) (L L' : Nat), L < 2 ^ 61 → L' < 2 ^ 61 → blockCount L = blockCount L' →
    (∀ i, i < 64 * blockCount L → paddedByte msg L (blockCount L) i = paddedByte msg' L' (blockCount L') i) →
    L = L' ∧ ∀ i, i < L → msg i = msg' i

/-! The digest formatter and the ports. -/

/-- R128: `digest[255 - 8*n : 248 - 8*n] = DIGEST[n]`; after a serialisation the port reads `{H[0], H[1], ..., H[7]}`. -/
def Obligations.DigestPortLayout : Prop :=
  (∀ (d : Vector Byte 32) (n : Nat) (hn : n < 32), (digestBits d).extractLsb' (248 - 8 * n) 8 = d[n]) ∧
  (∀ h : Vector Word 8, (digestBits (serialise h)).toNat =
    h[0].toNat * 2 ^ 224 + h[1].toNat * 2 ^ 192 + h[2].toNat * 2 ^ 160 + h[3].toNat * 2 ^ 128 +
    h[4].toNat * 2 ^ 96 + h[5].toNat * 2 ^ 64 + h[6].toNat * 2 ^ 32 + h[7].toNat)

/-- R130, R131: `digest_hex` is 64 characters, each a lowercase hexadecimal digit, two for each byte with the high nibble first,
character 0 on top; the port exists iff `HAS_HEX` and carries them while `done = 1`. -/
def Obligations.HexPortLayout : Prop :=
  (∀ d : Vector Byte 32,
    (hexChars d).length = 64 ∧
    (∀ c ∈ hexChars d, (0x30 ≤ c.toNat ∧ c.toNat ≤ 0x39) ∨ (0x61 ≤ c.toNat ∧ c.toNat ≤ 0x66)) ∧
    (∀ (n : Nat) (hn : n < 32),
      (hexChars d)[2 * n]? = some (hexdigit (BitVec.ofNat 4 (d[n].toNat / 16))) ∧
      (hexChars d)[2 * n + 1]? = some (hexdigit (BitVec.ofNat 4 (d[n].toNat % 16)))) ∧
    (∀ c, c < 64 → (hexChars d)[c]? = some ((hexBits d).extractLsb' (504 - 8 * c) 8))) ∧
  (∀ v : BitVec 4, (v.toNat ≤ 9 → (hexdigit v).toNat = 0x30 + v.toNat) ∧
    (10 ≤ v.toNat → (hexdigit v).toNat = 0x61 + (v.toNat - 10))) ∧
  (∀ s : State, s.hexPort false = none ∧ (s.done = true → s.hexPort true = some (hexBits s.DIGEST)))

/-- R132: decoding `digest_hex`, two characters per byte, gives `DIGEST` back. -/
def Obligations.HexDecodesToDigest : Prop :=
  ∀ (d : Vector Byte 32) (n : Nat) (hn : n < 32), ∃ c c' : Byte,
    (hexChars d)[2 * n]? = some c ∧ (hexChars d)[2 * n + 1]? = some c' ∧
    16 * hexValue c + hexValue c' = d[n].toNat

/-- R55 item 3, R129: while `done = 1` the ports carry the digest register, and from the step `done` rises they keep their value
until the next accepted START or RESET. -/
def Obligations.DigestPortsHoldWhileDone : Prop :=
  (∀ s : State, s.done = true → s.digestPort = digestBits s.DIGEST ∧ s.hexPort true = some (hexBits s.DIGEST)) ∧
  ∀ (n : Nat) (s t : State) (hasHex : Bool), s.phase = 0x9 → (∀ m ∈ s.host.take n, m.rst = false ∧ m.start = false) →
    Steps n s t → t.done = true ∧ t.digestPort = s.digestPort ∧ t.hexPort hasHex = s.hexPort hasHex

/-- R34, R181: after reset `phase` is IDLE, the three flags and `msg_re` are 0. -/
def Obligations.ResetStateIsIdle : Prop :=
  State.reset.phase = 0x0 ∧ State.reset.busy = false ∧ State.reset.done = false ∧ State.reset.err = false ∧
  State.reset.msgRe = false
end

