-- ==== Sys2Proof/Laws/Memory.lean ====
section
/-! SUPPORT. The laws of the message memory: what a write does to a read, and that every operation keeps the canonical form. -/

namespace Sys2Proof.Machine

theorem Memory.read_nil (x : Nat) : Memory.read [] x = Memory.unlisted := rfl

theorem Memory.read_cons (a : Nat) (b : Byte) (rest : Memory) (x : Nat) :
    Memory.read ((a, b) :: rest) x = if x = a then b else Memory.read rest x := rfl

/-- A canonical list from `lo` on is one from any smaller address on. -/
theorem Memory.wfFrom_mono {m : Memory} {lo lo' : Nat} (h : Memory.wfFrom m lo = true) (hle : lo' ≤ lo) :
    Memory.wfFrom m lo' = true := by
  cases m with
  | nil => rfl
  | cons c rest =>
    simp only [Memory.wfFrom, Bool.and_eq_true, decide_eq_true_eq] at h ⊢
    exact ⟨⟨⟨by omega, h.1.1.2⟩, h.1.2⟩, h.2⟩

/-- Below its first address a canonical list reads as unlisted. -/
theorem Memory.read_below {m : Memory} {lo x : Nat} (h : Memory.wfFrom m lo = true) (hx : x < lo) :
    Memory.read m x = Memory.unlisted := by
  induction m generalizing lo with
  | nil => rfl
  | cons c rest ih =>
    obtain ⟨a, b⟩ := c
    simp only [Memory.wfFrom, Bool.and_eq_true, decide_eq_true_eq] at h
    rw [Memory.read_cons, if_neg (by omega)]
    exact ih h.2 (by omega)

/-- Reading after one write, in a canonical memory. -/
theorem Memory.read_write {m : Memory} {lo : Nat} (h : Memory.wfFrom m lo = true) (x : Nat) (v : Byte) (y : Nat) :
    Memory.read (Memory.write m x v) y = if y = x then v else Memory.read m y := by
  induction m generalizing lo with
  | nil =>
    by_cases hv : v = Memory.unlisted <;> by_cases hy : y = x <;> simp [Memory.write, Memory.read, hv, hy]
  | cons c rest ih =>
    obtain ⟨a, b⟩ := c
    simp only [Memory.wfFrom, Bool.and_eq_true, decide_eq_true_eq] at h
    have hr := ih h.2
    have hb : ∀ z, z < a + 1 → Memory.read rest z = Memory.unlisted := fun z hz => Memory.read_below h.2 hz
    unfold Memory.write
    by_cases h1 : x < a
    · rw [if_pos h1]
      by_cases hv : v = Memory.unlisted
      · rw [if_pos hv]
        by_cases hy : y = x
        · subst hy
          rw [if_pos rfl, Memory.read_cons, if_neg (by omega), hb y (by omega), hv]
        · rw [if_neg hy]
      · rw [if_neg hv, Memory.read_cons]
    · rw [if_neg h1]
      by_cases h2 : x = a
      · subst h2
        rw [if_pos rfl]
        by_cases hv : v = Memory.unlisted
        · rw [if_pos hv]
          by_cases hy : y = x
          · subst hy; rw [if_pos rfl, hb y (by omega), hv]
          · rw [if_neg hy, Memory.read_cons, if_neg hy]
        · rw [if_neg hv, Memory.read_cons, Memory.read_cons]
          by_cases hy : y = x
          · rw [if_pos hy, if_pos hy]
          · rw [if_neg hy, if_neg hy, if_neg hy]
      · rw [if_neg h2, Memory.read_cons, Memory.read_cons, hr]
        by_cases hya : y = a
        · rw [if_pos hya, if_neg (by omega), if_pos hya]
        · rw [if_neg hya, if_neg hya]

/-- One write at or above `lo` keeps the canonical form from `lo` on. -/
theorem Memory.wfFrom_write {m : Memory} {lo x : Nat} (h : Memory.wfFrom m lo = true) (v : Byte) (hlo : lo ≤ x)
    (hx : x < Memory.size) : Memory.wfFrom (Memory.write m x v) lo = true := by
  induction m generalizing lo with
  | nil =>
    by_cases hv : v = Memory.unlisted
    · simp [Memory.write, hv, Memory.wfFrom]
    · simp [Memory.write, hv, Memory.wfFrom, hlo, hx]
  | cons c rest ih =>
    obtain ⟨a, b⟩ := c
    simp only [Memory.wfFrom, Bool.and_eq_true, decide_eq_true_eq] at h
    unfold Memory.write
    by_cases h1 : x < a
    · rw [if_pos h1]
      by_cases hv : v = Memory.unlisted
      · rw [if_pos hv]
        simp only [Memory.wfFrom, Bool.and_eq_true, decide_eq_true_eq]
        exact h
      · rw [if_neg hv]
        simp only [Memory.wfFrom, Bool.and_eq_true, decide_eq_true_eq]
        exact ⟨⟨⟨hlo, hx⟩, by simpa using hv⟩, ⟨⟨⟨by omega, h.1.1.2⟩, h.1.2⟩, h.2⟩⟩
    · rw [if_neg h1]
      by_cases h2 : x = a
      · rw [if_pos h2]
        by_cases hv : v = Memory.unlisted
        · rw [if_pos hv]
          exact Memory.wfFrom_mono h.2 (by omega)
        · rw [if_neg hv]
          subst h2
          simp only [Memory.wfFrom, Bool.and_eq_true, decide_eq_true_eq]
          exact ⟨⟨⟨hlo, hx⟩, by simpa using hv⟩, h.2⟩
      · rw [if_neg h2]
        simp only [Memory.wfFrom, Bool.and_eq_true, decide_eq_true_eq]
        exact ⟨⟨h.1.1, h.1.2⟩, ih h.2 (by omega)⟩

/-- Writing a byte of MSG keeps the canonical form. -/
theorem Memory.wf_write {m : Memory} (h : m.wf = true) {x : Nat} (hx : x < Memory.size) (v : Byte) :
    (m.write x v).wf = true := Memory.wfFrom_write h v (Nat.zero_le x) hx

/-- So does writing several. -/
theorem Memory.wf_writeAll {m : Memory} (h : m.wf = true) {cs : List Host.Cell} (hc : ∀ c ∈ cs, c.1 < Memory.size) :
    (m.writeAll cs).wf = true := by
  induction cs generalizing m with
  | nil => exact h
  | cons c rest ih =>
    exact ih (Memory.wf_write h (hc c (by simp)) c.2) (fun d hd => hc d (by simp [hd]))

/-- Two lists of writes, one after the other. -/
theorem Memory.writeAll_append (m : Memory) (cs ds : List Host.Cell) :
    m.writeAll (cs ++ ds) = (m.writeAll cs).writeAll ds := by
  induction cs generalizing m with
  | nil => rfl
  | cons c rest ih => exact ih (Memory.write m c.1 c.2)

/-- Reading an address that no write of the list goes to. -/
theorem Memory.read_writeAll_other {m : Memory} (h : m.wf = true) {cs : List Host.Cell}
    (hc : ∀ c ∈ cs, c.1 < Memory.size) {y : Nat} (hy : ∀ c ∈ cs, c.1 ≠ y) : (m.writeAll cs).read y = m.read y := by
  induction cs generalizing m with
  | nil => rfl
  | cons c rest ih =>
    rw [Memory.writeAll, ih (Memory.wf_write h (hc c (by simp)) c.2) (fun d hd => hc d (by simp [hd]))
      (fun d hd => hy d (by simp [hd])), Memory.read_write h, if_neg (fun e => hy c (by simp) e.symm)]

/-- Reading an address that every write of the list to it gives the byte it already holds. -/
theorem Memory.read_writeAll_same {m : Memory} (h : m.wf = true) {cs : List Host.Cell}
    (hc : ∀ c ∈ cs, c.1 < Memory.size) {y : Nat} (hy : ∀ c ∈ cs, c.1 = y → c.2 = m.read y) :
    (m.writeAll cs).read y = m.read y := by
  induction cs generalizing m with
  | nil => rfl
  | cons c rest ih =>
    have hw : (m.write c.1 c.2).read y = m.read y := by
      rw [Memory.read_write h]
      split
      · exact hy c (by simp) (by omega)
      · rfl
    rw [Memory.writeAll, ih (Memory.wf_write h (hc c (by simp)) c.2) (fun d hd => hc d (by simp [hd]))
      (fun d hd e => by rw [hw]; exact hy d (by simp [hd]) e), hw]

/-- The first address of a nonempty canonical list reads as listed. -/
theorem Memory.read_head (a : Nat) (b : Byte) (rest : Memory) : Memory.read ((a, b) :: rest) a = b := by
  rw [Memory.read_cons, if_pos rfl]

theorem Memory.reset_wf : Memory.wf State.reset.MSG = true := rfl

end Sys2Proof.Machine
end

