-- ==== Sys2Proof/Laws/State.lean ====
section
/-! SUPPORT. One lemma per field per update of the state, so that no later proof unfolds a record update. -/

namespace Sys2Proof.Machine

/-! `advance` -/

@[simp] theorem State.advance_H (s : State) : s.advance.H = s.H := rfl
@[simp] theorem State.advance_V (s : State) : s.advance.V = s.V := rfl
@[simp] theorem State.advance_W (s : State) : s.advance.W = s.W := rfl
@[simp] theorem State.advance_BLK (s : State) : s.advance.BLK = s.BLK := rfl
@[simp] theorem State.advance_DIGEST (s : State) : s.advance.DIGEST = s.DIGEST := rfl
@[simp] theorem State.advance_LEN (s : State) : s.advance.LEN = s.LEN := rfl
@[simp] theorem State.advance_N (s : State) : s.advance.N = s.N := rfl
@[simp] theorem State.advance_phase (s : State) : s.advance.phase = s.phase := rfl
@[simp] theorem State.advance_j (s : State) : s.advance.j = s.j := rfl
@[simp] theorem State.advance_k (s : State) : s.advance.k = s.k := rfl
@[simp] theorem State.advance_MSG (s : State) : s.advance.MSG = s.MSG := rfl
@[simp] theorem State.advance_host (s : State) : s.advance.host = s.host.tail := rfl
@[simp] theorem State.advance_draw (s : State) : s.advance.draw = s.draw + 1 := rfl

/-! `afterHostWrites` -/

@[simp] theorem State.afterHostWrites_H (s : State) : s.afterHostWrites.H = s.H := rfl
@[simp] theorem State.afterHostWrites_V (s : State) : s.afterHostWrites.V = s.V := rfl
@[simp] theorem State.afterHostWrites_W (s : State) : s.afterHostWrites.W = s.W := rfl
@[simp] theorem State.afterHostWrites_BLK (s : State) : s.afterHostWrites.BLK = s.BLK := rfl
@[simp] theorem State.afterHostWrites_DIGEST (s : State) : s.afterHostWrites.DIGEST = s.DIGEST := rfl
@[simp] theorem State.afterHostWrites_LEN (s : State) : s.afterHostWrites.LEN = s.LEN := rfl
@[simp] theorem State.afterHostWrites_N (s : State) : s.afterHostWrites.N = s.N := rfl
@[simp] theorem State.afterHostWrites_phase (s : State) : s.afterHostWrites.phase = s.phase := rfl
@[simp] theorem State.afterHostWrites_j (s : State) : s.afterHostWrites.j = s.j := rfl
@[simp] theorem State.afterHostWrites_k (s : State) : s.afterHostWrites.k = s.k := rfl
@[simp] theorem State.afterHostWrites_MSG (s : State) : s.afterHostWrites.MSG = Memory.writeAll s.MSG s.move.writes := rfl
@[simp] theorem State.afterHostWrites_host (s : State) : s.afterHostWrites.host = s.host := rfl
@[simp] theorem State.afterHostWrites_draw (s : State) : s.afterHostWrites.draw = s.draw := rfl

/-! `raise` -/

@[simp] theorem State.raise_H (s : State) (c : Cause) : (s.raise c).H = s.H := by cases c; rfl
@[simp] theorem State.raise_V (s : State) (c : Cause) : (s.raise c).V = s.V := by cases c; rfl
@[simp] theorem State.raise_W (s : State) (c : Cause) : (s.raise c).W = s.W := by cases c; rfl
@[simp] theorem State.raise_BLK (s : State) (c : Cause) : (s.raise c).BLK = s.BLK := by cases c; rfl
@[simp] theorem State.raise_DIGEST (s : State) (c : Cause) : (s.raise c).DIGEST = s.DIGEST := by cases c; rfl
@[simp] theorem State.raise_LEN (s : State) (c : Cause) : (s.raise c).LEN = s.LEN := by cases c; rfl
@[simp] theorem State.raise_N (s : State) (c : Cause) : (s.raise c).N = s.N := by cases c; rfl
@[simp] theorem State.raise_phase (s : State) (c : Cause) : (s.raise c).phase = Phase.error := by cases c; rfl
@[simp] theorem State.raise_j (s : State) (c : Cause) : (s.raise c).j = s.j := by cases c; rfl
@[simp] theorem State.raise_k (s : State) (c : Cause) : (s.raise c).k = s.k := by cases c; rfl
@[simp] theorem State.raise_MSG (s : State) (c : Cause) : (s.raise c).MSG = s.MSG := by cases c; rfl
@[simp] theorem State.raise_host (s : State) (c : Cause) : (s.raise c).host = s.host := by cases c; rfl
@[simp] theorem State.raise_draw (s : State) (c : Cause) : (s.raise c).draw = s.draw := by cases c; rfl

/-! `beginRun` -/

@[simp] theorem State.beginRun_H (s : State) (len : BitVec 64) : (s.beginRun len).H = s.H := rfl
@[simp] theorem State.beginRun_V (s : State) (len : BitVec 64) : (s.beginRun len).V = s.V := rfl
@[simp] theorem State.beginRun_W (s : State) (len : BitVec 64) : (s.beginRun len).W = s.W := rfl
@[simp] theorem State.beginRun_BLK (s : State) (len : BitVec 64) : (s.beginRun len).BLK = s.BLK := rfl
@[simp] theorem State.beginRun_DIGEST (s : State) (len : BitVec 64) : (s.beginRun len).DIGEST = s.DIGEST := rfl
@[simp] theorem State.beginRun_LEN (s : State) (len : BitVec 64) : (s.beginRun len).LEN = len := rfl
@[simp] theorem State.beginRun_N (s : State) (len : BitVec 64) : (s.beginRun len).N = s.N := rfl
@[simp] theorem State.beginRun_phase (s : State) (len : BitVec 64) : (s.beginRun len).phase = Phase.init := rfl
@[simp] theorem State.beginRun_j (s : State) (len : BitVec 64) : (s.beginRun len).j = s.j := rfl
@[simp] theorem State.beginRun_k (s : State) (len : BitVec 64) : (s.beginRun len).k = s.k := rfl
@[simp] theorem State.beginRun_MSG (s : State) (len : BitVec 64) : (s.beginRun len).MSG = s.MSG := rfl
@[simp] theorem State.beginRun_host (s : State) (len : BitVec 64) : (s.beginRun len).host = s.host := rfl
@[simp] theorem State.beginRun_draw (s : State) (len : BitVec 64) : (s.beginRun len).draw = s.draw := rfl

/-! `resetRegisters` -/

@[simp] theorem State.resetRegisters_H (s : State) : s.resetRegisters.H = Config.freeH s.draw := rfl
@[simp] theorem State.resetRegisters_V (s : State) : s.resetRegisters.V = Config.freeV s.draw := rfl
@[simp] theorem State.resetRegisters_W (s : State) : s.resetRegisters.W = Config.freeW s.draw := rfl
@[simp] theorem State.resetRegisters_BLK (s : State) : s.resetRegisters.BLK = Config.freeBLK s.draw := rfl
@[simp] theorem State.resetRegisters_DIGEST (s : State) : s.resetRegisters.DIGEST = Config.freeDIGEST s.draw := rfl
@[simp] theorem State.resetRegisters_LEN (s : State) : s.resetRegisters.LEN = Config.freeLEN s.draw := rfl
@[simp] theorem State.resetRegisters_N (s : State) : s.resetRegisters.N = Config.freeN s.draw := rfl
@[simp] theorem State.resetRegisters_phase (s : State) : s.resetRegisters.phase = Phase.idle := rfl
@[simp] theorem State.resetRegisters_j (s : State) : s.resetRegisters.j = Config.freeJ s.draw := rfl
@[simp] theorem State.resetRegisters_k (s : State) : s.resetRegisters.k = Config.freeK s.draw := rfl
@[simp] theorem State.resetRegisters_MSG (s : State) : s.resetRegisters.MSG = s.MSG := rfl
@[simp] theorem State.resetRegisters_host (s : State) : s.resetRegisters.host = s.host := rfl
@[simp] theorem State.resetRegisters_draw (s : State) : s.resetRegisters.draw = s.draw := rfl

/-! `setBlk` -/

@[simp] theorem State.setBlk_H (s : State) (b : Byte) : (s.setBlk b).H = s.H := rfl
@[simp] theorem State.setBlk_V (s : State) (b : Byte) : (s.setBlk b).V = s.V := rfl
@[simp] theorem State.setBlk_W (s : State) (b : Byte) : (s.setBlk b).W = s.W := rfl
@[simp] theorem State.setBlk_BLK (s : State) (b : Byte) : (s.setBlk b).BLK = s.BLK.set s.k.toNat b (inner_lt s.k) := rfl
@[simp] theorem State.setBlk_DIGEST (s : State) (b : Byte) : (s.setBlk b).DIGEST = s.DIGEST := rfl
@[simp] theorem State.setBlk_LEN (s : State) (b : Byte) : (s.setBlk b).LEN = s.LEN := rfl
@[simp] theorem State.setBlk_N (s : State) (b : Byte) : (s.setBlk b).N = s.N := rfl
@[simp] theorem State.setBlk_phase (s : State) (b : Byte) : (s.setBlk b).phase = s.phase := rfl
@[simp] theorem State.setBlk_j (s : State) (b : Byte) : (s.setBlk b).j = s.j := rfl
@[simp] theorem State.setBlk_k (s : State) (b : Byte) : (s.setBlk b).k = s.k := rfl
@[simp] theorem State.setBlk_MSG (s : State) (b : Byte) : (s.setBlk b).MSG = s.MSG := rfl
@[simp] theorem State.setBlk_host (s : State) (b : Byte) : (s.setBlk b).host = s.host := rfl
@[simp] theorem State.setBlk_draw (s : State) (b : Byte) : (s.setBlk b).draw = s.draw := rfl

/-! `setW` -/

@[simp] theorem State.setW_H (s : State) (x : Word) : (s.setW x).H = s.H := rfl
@[simp] theorem State.setW_V (s : State) (x : Word) : (s.setW x).V = s.V := rfl
@[simp] theorem State.setW_W (s : State) (x : Word) : (s.setW x).W = s.W.set s.k.toNat x (inner_lt s.k) := rfl
@[simp] theorem State.setW_BLK (s : State) (x : Word) : (s.setW x).BLK = s.BLK := rfl
@[simp] theorem State.setW_DIGEST (s : State) (x : Word) : (s.setW x).DIGEST = s.DIGEST := rfl
@[simp] theorem State.setW_LEN (s : State) (x : Word) : (s.setW x).LEN = s.LEN := rfl
@[simp] theorem State.setW_N (s : State) (x : Word) : (s.setW x).N = s.N := rfl
@[simp] theorem State.setW_phase (s : State) (x : Word) : (s.setW x).phase = s.phase := rfl
@[simp] theorem State.setW_j (s : State) (x : Word) : (s.setW x).j = s.j := rfl
@[simp] theorem State.setW_k (s : State) (x : Word) : (s.setW x).k = s.k := rfl
@[simp] theorem State.setW_MSG (s : State) (x : Word) : (s.setW x).MSG = s.MSG := rfl
@[simp] theorem State.setW_host (s : State) (x : Word) : (s.setW x).host = s.host := rfl
@[simp] theorem State.setW_draw (s : State) (x : Word) : (s.setW x).draw = s.draw := rfl

/-! `placeCommand` -/

@[simp] theorem State.placeCommand_H (s : State) (w : Nat) : (s.placeCommand w).H = s.H := rfl
@[simp] theorem State.placeCommand_V (s : State) (w : Nat) : (s.placeCommand w).V = s.V := rfl
@[simp] theorem State.placeCommand_W (s : State) (w : Nat) : (s.placeCommand w).W = s.W := rfl
@[simp] theorem State.placeCommand_BLK (s : State) (w : Nat) : (s.placeCommand w).BLK = s.BLK := rfl
@[simp] theorem State.placeCommand_DIGEST (s : State) (w : Nat) : (s.placeCommand w).DIGEST = s.DIGEST := rfl
@[simp] theorem State.placeCommand_LEN (s : State) (w : Nat) : (s.placeCommand w).LEN = s.LEN := rfl
@[simp] theorem State.placeCommand_N (s : State) (w : Nat) : (s.placeCommand w).N = s.N := rfl
@[simp] theorem State.placeCommand_phase (s : State) (w : Nat) : (s.placeCommand w).phase = s.phase := rfl
@[simp] theorem State.placeCommand_j (s : State) (w : Nat) : (s.placeCommand w).j = s.j := rfl
@[simp] theorem State.placeCommand_k (s : State) (w : Nat) : (s.placeCommand w).k = s.k := rfl
@[simp] theorem State.placeCommand_MSG (s : State) (w : Nat) : (s.placeCommand w).MSG = s.MSG := rfl
@[simp] theorem State.placeCommand_draw (s : State) (w : Nat) : (s.placeCommand w).draw = s.draw := rfl

/-! `placeUop` -/

@[simp] theorem State.placeUop_H (s : State) (w : Nat) : (s.placeUop w).H = s.H := rfl
@[simp] theorem State.placeUop_V (s : State) (w : Nat) : (s.placeUop w).V = s.V := rfl
@[simp] theorem State.placeUop_W (s : State) (w : Nat) : (s.placeUop w).W = s.W := rfl
@[simp] theorem State.placeUop_BLK (s : State) (w : Nat) : (s.placeUop w).BLK = s.BLK := rfl
@[simp] theorem State.placeUop_DIGEST (s : State) (w : Nat) : (s.placeUop w).DIGEST = s.DIGEST := rfl
@[simp] theorem State.placeUop_LEN (s : State) (w : Nat) : (s.placeUop w).LEN = s.LEN := rfl
@[simp] theorem State.placeUop_N (s : State) (w : Nat) : (s.placeUop w).N = s.N := rfl
@[simp] theorem State.placeUop_phase (s : State) (w : Nat) : (s.placeUop w).phase = BitVec.ofNat 4 w := rfl
@[simp] theorem State.placeUop_j (s : State) (w : Nat) : (s.placeUop w).j = s.j := rfl
@[simp] theorem State.placeUop_k (s : State) (w : Nat) : (s.placeUop w).k = s.k := rfl
@[simp] theorem State.placeUop_MSG (s : State) (w : Nat) : (s.placeUop w).MSG = s.MSG := rfl
@[simp] theorem State.placeUop_host (s : State) (w : Nat) : (s.placeUop w).host = HostMove.none :: s.host.tail := rfl
@[simp] theorem State.placeUop_draw (s : State) (w : Nat) : (s.placeUop w).draw = s.draw := rfl

/-! `nextInner` -/

@[simp] theorem State.nextInner_H (s : State) (last : Nat) (restart : BitVec 6) (after : BitVec 4) : (s.nextInner last restart after).H = s.H := by unfold State.nextInner; split <;> rfl
@[simp] theorem State.nextInner_V (s : State) (last : Nat) (restart : BitVec 6) (after : BitVec 4) : (s.nextInner last restart after).V = s.V := by unfold State.nextInner; split <;> rfl
@[simp] theorem State.nextInner_W (s : State) (last : Nat) (restart : BitVec 6) (after : BitVec 4) : (s.nextInner last restart after).W = s.W := by unfold State.nextInner; split <;> rfl
@[simp] theorem State.nextInner_BLK (s : State) (last : Nat) (restart : BitVec 6) (after : BitVec 4) : (s.nextInner last restart after).BLK = s.BLK := by unfold State.nextInner; split <;> rfl
@[simp] theorem State.nextInner_DIGEST (s : State) (last : Nat) (restart : BitVec 6) (after : BitVec 4) : (s.nextInner last restart after).DIGEST = s.DIGEST := by unfold State.nextInner; split <;> rfl
@[simp] theorem State.nextInner_LEN (s : State) (last : Nat) (restart : BitVec 6) (after : BitVec 4) : (s.nextInner last restart after).LEN = s.LEN := by unfold State.nextInner; split <;> rfl
@[simp] theorem State.nextInner_N (s : State) (last : Nat) (restart : BitVec 6) (after : BitVec 4) : (s.nextInner last restart after).N = s.N := by unfold State.nextInner; split <;> rfl
@[simp] theorem State.nextInner_phase (s : State) (last : Nat) (restart : BitVec 6) (after : BitVec 4) : (s.nextInner last restart after).phase = if s.k.toNat < last then s.phase else after := by unfold State.nextInner; split <;> rfl
@[simp] theorem State.nextInner_j (s : State) (last : Nat) (restart : BitVec 6) (after : BitVec 4) : (s.nextInner last restart after).j = s.j := by unfold State.nextInner; split <;> rfl
@[simp] theorem State.nextInner_k (s : State) (last : Nat) (restart : BitVec 6) (after : BitVec 4) : (s.nextInner last restart after).k = if s.k.toNat < last then s.k + 1 else restart := by unfold State.nextInner; split <;> rfl
@[simp] theorem State.nextInner_MSG (s : State) (last : Nat) (restart : BitVec 6) (after : BitVec 4) : (s.nextInner last restart after).MSG = s.MSG := by unfold State.nextInner; split <;> rfl
@[simp] theorem State.nextInner_host (s : State) (last : Nat) (restart : BitVec 6) (after : BitVec 4) : (s.nextInner last restart after).host = s.host := by unfold State.nextInner; split <;> rfl
@[simp] theorem State.nextInner_draw (s : State) (last : Nat) (restart : BitVec 6) (after : BitVec 4) : (s.nextInner last restart after).draw = s.draw := by unfold State.nextInner; split <;> rfl

/-! The operands that read only fields an update leaves alone. -/

@[simp] theorem State.afterHostWrites_move (s : State) : s.afterHostWrites.move = s.move := rfl
@[simp] theorem State.afterHostWrites_fetch (s : State) : s.afterHostWrites.fetch = s.fetch := rfl
@[simp] theorem State.afterHostWrites_busy (s : State) : s.afterHostWrites.busy = s.busy := rfl
@[simp] theorem State.afterHostWrites_resting (s : State) : s.afterHostWrites.resting = s.resting := rfl
@[simp] theorem State.afterHostWrites_byteIndex (s : State) : s.afterHostWrites.byteIndex = s.byteIndex := rfl
@[simp] theorem State.afterHostWrites_w (s : State) (n : Nat) : s.afterHostWrites.w n = s.w n := rfl
@[simp] theorem State.afterHostWrites_blk (s : State) (n : Nat) : s.afterHostWrites.blk n = s.blk n := rfl
@[simp] theorem State.advance_w (s : State) (n : Nat) : s.advance.w n = s.w n := rfl
@[simp] theorem State.advance_blk (s : State) (n : Nat) : s.advance.blk n = s.blk n := rfl
@[simp] theorem State.advance_byteIndex (s : State) : s.advance.byteIndex = s.byteIndex := rfl
@[simp] theorem State.advance_busy (s : State) : s.advance.busy = s.busy := rfl
@[simp] theorem State.advance_resting (s : State) : s.advance.resting = s.resting := rfl
@[simp] theorem State.advance_done (s : State) : s.advance.done = s.done := rfl
@[simp] theorem State.advance_err (s : State) : s.advance.err = s.err := rfl

/-- Reading `BLK[n]` after `BLK[k] <- b`. -/
theorem State.setBlk_blk (s : State) (b : Byte) {n : Nat} (hn : n < 64) :
    (s.setBlk b).blk n = if n = s.k.toNat then b else s.blk n := by
  simp only [State.blk, dif_pos hn, State.setBlk_BLK, Vector.getElem_set, eq_comm (a := n)]

/-- Reading `W[n]` after `W[k] <- x`. -/
theorem State.setW_w (s : State) (x : Word) {n : Nat} (hn : n < 64) :
    (s.setW x).w n = if n = s.k.toNat then x else s.w n := by
  simp only [State.w, dif_pos hn, State.setW_W, Vector.getElem_set, eq_comm (a := n)]

@[simp] theorem State.nextInner_blk (s : State) (last : Nat) (restart : BitVec 6) (after : BitVec 4) (n : Nat) :
    (s.nextInner last restart after).blk n = s.blk n := by unfold State.nextInner; split <;> rfl
@[simp] theorem State.nextInner_w (s : State) (last : Nat) (restart : BitVec 6) (after : BitVec 4) (n : Nat) :
    (s.nextInner last restart after).w n = s.w n := by unfold State.nextInner; split <;> rfl
@[simp] theorem State.setW_blk (s : State) (x : Word) (n : Nat) : (s.setW x).blk n = s.blk n := rfl
@[simp] theorem State.setBlk_w (s : State) (b : Byte) (n : Nat) : (s.setBlk b).w n = s.w n := rfl

end Sys2Proof.Machine
end

