-- ==== Sys2Proof/Laws/Exec.lean ====
section
/-! SUPPORT. What the shared operations and one step can do, said once: the inner loops, the host's writes, the choice of the
instruction, the core's own step, the step itself. -/

namespace Sys2Proof.Machine

/-- The end of an inner step either counts up or leaves the loop. -/
theorem State.nextInner_cases (s : State) (last : Nat) (restart : BitVec 6) (after : BitVec 4) :
    (s.k.toNat < last ∧ s.nextInner last restart after = { s with k := s.k + 1 }) ∨
    (last ≤ s.k.toNat ∧ s.nextInner last restart after = { s with k := restart, phase := after }) := by
  unfold State.nextInner
  by_cases h : s.k.toNat < last
  · exact .inl ⟨h, if_pos h⟩
  · exact .inr ⟨by omega, if_neg h⟩

/-- One write of the host is made iff MSG has the byte and no run in progress would see it change. -/
theorem State.checkWrite_eq_none (s : State) (c : Host.Cell) :
    s.checkWrite c = none ↔
      c.1 < Memory.size ∧ (s.busy = true → c.1 < s.LEN.toNat → c.2 = Memory.read s.MSG c.1) := by
  unfold State.checkWrite
  by_cases h1 : Memory.size ≤ c.1
  · simp [h1]
  · simp only [if_neg h1, ite_eq_right_iff, reduceCtorEq, imp_false, Bool.and_eq_true, decide_eq_true_eq,
      Bool.not_eq_true', not_and, Bool.not_eq_false, beq_iff_eq]
    exact ⟨fun h => ⟨by omega, fun hb hl => h ⟨hb, hl⟩⟩, fun h hbl => h.2 hbl.1 hbl.2⟩

/-- The host keeps its duty iff every write of its move is made. -/
theorem State.hostRefusal_eq_none (s : State) :
    s.hostRefusal = none ↔ ∀ c ∈ s.move.writes,
      c.1 < Memory.size ∧ (s.busy = true → c.1 < s.LEN.toNat → c.2 = Memory.read s.MSG c.1) := by
  unfold State.hostRefusal
  rw [List.findSome?_eq_none_iff]
  exact forall₂_congr fun c _ => s.checkWrite_eq_none c

/-- A step answers a next state iff the host keeps its duty and the selected instruction answers one. -/
theorem step_eq_next_iff (s t : State) :
    step s = .next t ↔
      s.hostRefusal = none ∧ ∃ u, exec s.fetch s.afterHostWrites = .next u ∧ t = u.advance := by
  unfold step
  rw [State.afterHostWrites_fetch]
  cases h : s.hostRefusal with
  | some r => simp
  | none =>
    cases h' : exec s.fetch s.afterHostWrites with
    | next u => simp [eq_comm]
    | fault r => simp
    | refused r => simp

/-- The step of a host that keeps its duty, from the outcome of the selected instruction. -/
theorem step_of_exec {s u : State} (h : s.hostRefusal = none) (hu : exec s.fetch s.afterHostWrites = .next u) :
    step s = .next u.advance := (step_eq_next_iff s _).2 ⟨h, u, hu, rfl⟩

/-- The core's own step is the micro-operation whose code is `phase`. -/
theorem coreStep_eq_exec (s : State) : coreStep s = exec (decodeUop s.phase) s := by
  unfold coreStep
  split <;> first
    | (rename_i h; rw [h]; rfl)
    | (unfold decodeUop; simp only [*]; rfl)

/-- With `rst` the step is a RESET. -/
theorem State.fetch_reset {s : State} (h : s.move.rst = true) : s.fetch = .reset s.move.start := if_pos h

/-- Without `rst`, `start` in a resting phase is an accepted START. -/
theorem State.fetch_start {s : State} (h : s.move.rst = false) (hs : s.move.start = true) (hr : s.resting = true) :
    s.fetch = .start s.move.len := by
  simp [State.fetch, h, hs, hr]

/-- Without `rst`, and outside a resting phase, the step is the core's own. -/
theorem State.fetch_uop {s : State} (h : s.move.rst = false) (hr : s.resting = false) :
    s.fetch = decodeUop s.phase := by
  simp [State.fetch, h, hr]

/-- With no command at all the step is the core's own. -/
theorem State.fetch_uop_of_no_start {s : State} (h : s.move.rst = false) (hs : s.move.start = false) :
    s.fetch = decodeUop s.phase := by
  simp [State.fetch, h, hs]

/-- In a busy phase the host's writes leave the message of the run as it was. -/
theorem State.afterHostWrites_read {s : State} (hm : s.MSG.wf = true) (hr : s.hostRefusal = none)
    (hb : s.busy = true) {a : Nat} (ha : a < s.LEN.toNat) : s.afterHostWrites.MSG.read a = s.MSG.read a := by
  have h := s.hostRefusal_eq_none.1 hr
  refine Memory.read_writeAll_same hm (fun c hc => (h c hc).1) (fun c hc e => ?_)
  rw [(h c hc).2 hb (by omega), e]

/-- The host's writes keep the canonical form. -/
theorem State.afterHostWrites_wf {s : State} (hm : s.MSG.wf = true) (hr : s.hostRefusal = none) :
    s.afterHostWrites.MSG.wf = true :=
  Memory.wf_writeAll hm fun c hc => (s.hostRefusal_eq_none.1 hr c hc).1

/-- What the pins select, said once. -/
theorem State.fetch_cases (s : State) :
    (s.move.rst = true ∧ s.fetch = .reset s.move.start) ∨
    (s.move.rst = false ∧ s.move.start = true ∧ s.resting = true ∧ s.fetch = .start s.move.len) ∨
    (s.move.rst = false ∧ ¬ (s.move.start = true ∧ s.resting = true) ∧ s.fetch = decodeUop s.phase) := by
  unfold State.fetch
  by_cases h : s.move.rst = true
  · simp [h]
  · by_cases h' : s.move.start = true <;> by_cases h'' : s.resting = true <;> simp [h, h', h'']

/-- The resting phases by their codes. -/
theorem State.resting_iff (s : State) : s.resting = true ↔ s.phase = 0x0 ∨ s.phase = 0x9 ∨ s.phase = 0xA := by
  simp [State.resting, restingAt, or_assoc]

/-- A legal phase is one of the eleven. -/
theorem phase_cases : ∀ p : BitVec 4, p.toNat ≤ 0xA →
    p = 0x0 ∨ p = 0x1 ∨ p = 0x2 ∨ p = 0x3 ∨ p = 0x4 ∨ p = 0x5 ∨ p = 0x6 ∨ p = 0x7 ∨ p = 0x8 ∨ p = 0x9 ∨ p = 0xA := by
  decide

/-- A busy phase is no resting one. -/
theorem State.resting_of_busy {s : State} (h : s.busy = true) : s.resting = false := by
  unfold State.busy at h
  unfold State.resting
  revert h
  generalize s.phase = p
  revert p
  decide

/-- Everything the core's own step can do, when it has one: the state `t` it gives, by the phase. -/
theorem coreStep_cases {s t : State} (h : coreStep s = .next t) :
    (s.resting = true ∧ t = s) ∨
    (s.phase = 0x1 ∧ lengthLimit ≤ s.LEN.toNat ∧ t = s.raise .lenOverflow) ∨
    (s.phase = 0x1 ∧ s.LEN.toNat < lengthLimit ∧
      t = { s with
        H := Rom.IV, N := BitVec.ofNat 56 (blockCount s.LEN.toNat), j := 0, k := 0, phase := Phase.ldb }) ∨
    (s.phase = 0x2 ∧ t = (s.setBlk s.loadedByte).nextInner 63 0 Phase.wld) ∨
    (s.phase = 0x3 ∧ t = (s.setW s.packedWord).nextInner 15 16 Phase.wex) ∨
    (s.phase = 0x4 ∧ t = (s.setW s.expandedWord).nextInner 63 0 Phase.rin) ∨
    (s.phase = 0x5 ∧ t = { s with V := s.H, k := 0, phase := Phase.rnd }) ∨
    (s.phase = 0x6 ∧
      t = { s with V := round s.V (Rom.roundConstant s.k.toNat) (s.w s.k.toNat) }.nextInner 63 0 Phase.fld) ∨
    (s.phase = 0x7 ∧ t = { s with
      H := foldInto s.H s.V
      j := s.nextJ
      k := 0
      phase := if s.j.toNat + 1 < s.N.toNat then Phase.ldb else Phase.ser }) ∨
    (s.phase = 0x8 ∧ t = { s with DIGEST := serialise s.H, phase := Phase.done }) := by
  rw [State.resting_iff]
  unfold coreStep at h
  split at h <;> rename_i hp
  · cases h; exact .inl ⟨.inl hp, rfl⟩
  · unfold execInit at h
    split at h <;> rename_i hL
    · cases h; exact .inr (.inl ⟨hp, hL, rfl⟩)
    · cases h; exact .inr (.inr (.inl ⟨hp, Nat.lt_of_not_le hL, rfl⟩))
  · cases h; exact .inr (.inr (.inr (.inl ⟨hp, rfl⟩)))
  · cases h; exact .inr (.inr (.inr (.inr (.inl ⟨hp, rfl⟩))))
  · cases h; exact .inr (.inr (.inr (.inr (.inr (.inl ⟨hp, rfl⟩)))))
  · cases h; exact .inr (.inr (.inr (.inr (.inr (.inr (.inl ⟨hp, rfl⟩))))))
  · cases h; exact .inr (.inr (.inr (.inr (.inr (.inr (.inr (.inl ⟨hp, rfl⟩)))))))
  · cases h; exact .inr (.inr (.inr (.inr (.inr (.inr (.inr (.inr (.inl ⟨hp, rfl⟩))))))))
  · cases h; exact .inr (.inr (.inr (.inr (.inr (.inr (.inr (.inr (.inr ⟨hp, rfl⟩))))))))
  · cases h; exact .inl ⟨.inr (.inl hp), rfl⟩
  · cases h; exact .inl ⟨.inr (.inr hp), rfl⟩
  all_goals cases h

/-- Everything a step can do, when it has a next state: a RESET, an accepted START, or the core's own step. -/
theorem step_cases {s t : State} (h : step s = .next t) :
    s.hostRefusal = none ∧
    ((s.move.rst = true ∧ t = s.afterHostWrites.resetRegisters.advance) ∨
     (s.move.rst = false ∧ s.move.start = true ∧ s.resting = true ∧
       t = (s.afterHostWrites.beginRun s.move.len).advance) ∨
     (s.move.rst = false ∧ ¬ (s.move.start = true ∧ s.resting = true) ∧
       ∃ u, coreStep s.afterHostWrites = .next u ∧ t = u.advance)) := by
  obtain ⟨hn, u, hu, ht⟩ := (step_eq_next_iff s t).1 h
  refine ⟨hn, ?_⟩
  rcases s.fetch_cases with ⟨h1, h2⟩ | ⟨h1, h2, h3, h4⟩ | ⟨h1, h2, h3⟩
  · rw [h2] at hu
    cases hu
    exact .inl ⟨h1, ht⟩
  · rw [h4] at hu
    have hu' : execStart s.move.len s.afterHostWrites = .next u := hu
    rw [execStart, if_pos (by simpa using h3)] at hu'
    cases hu'
    exact .inr (.inl ⟨h1, h2, h3, ht⟩)
  · rw [h3] at hu
    exact .inr (.inr ⟨h1, h2, u, by rw [coreStep_eq_exec]; exact hu, ht⟩)

end Sys2Proof.Machine
end

