-- ==== Sys2Proof/Laws/PerInstr.lean ====
section
/-! SUPPORT. Statements made once per constructor of `Instr`: the family EncodeFits. -/

namespace Sys2Proof.Laws.EncodeFits

/-- The word of an instruction has no bit above its format's own. -/
abbrev Statement (i : Instr) : Prop := encode i < 2 ^ i.format.bits

theorem reset (start : Bool) : Statement (.reset start) := by cases start <;> decide
theorem start (len : BitVec 64) : Statement (.start len) := by
  have := len.isLt
  show 1 + 4 * len.toNat < 2 ^ 66
  omega
theorem nocmd : Statement .nocmd := by decide
theorem idle : Statement .idle := by decide
theorem init : Statement .init := by decide
theorem ldb : Statement .ldb := by decide
theorem wld : Statement .wld := by decide
theorem wex : Statement .wex := by decide
theorem rin : Statement .rin := by decide
theorem rnd : Statement .rnd := by decide
theorem fld : Statement .fld := by decide
theorem ser : Statement .ser := by decide
theorem done : Statement .done := by decide
theorem error : Statement .error := by decide
theorem reservedB : Statement .reservedB := by decide
theorem reservedC : Statement .reservedC := by decide
theorem reservedD : Statement .reservedD := by decide
theorem reservedE : Statement .reservedE := by decide
theorem reservedF : Statement .reservedF := by decide

end Sys2Proof.Laws.EncodeFits
end

