-- ==== Sys2Proof/Laws/Reference.lean ====
section
/-! SUPPORT. The equations of the reference function, that it looks at the message below its length only, and the elements of
the fold and the serialisation. -/

namespace Sys2Proof.Machine.Reference

/-- The first sixteen words of a schedule are loaded. -/
theorem schedule_loaded (B : Nat → Byte) {i : Nat} (h : i < 16) :
    schedule B i = be32 (B (4 * i)) (B (4 * i + 1)) (B (4 * i + 2)) (B (4 * i + 3)) := by
  rw [schedule]
  omega

/-- The others are expanded from earlier ones. -/
theorem schedule_expanded (B : Nat → Byte) {i : Nat} (h : 16 ≤ i) :
    schedule B i =
      expandWord (schedule B (i - 2)) (schedule B (i - 7)) (schedule B (i - 15)) (schedule B (i - 16)) := by
  obtain ⟨n, rfl⟩ : ∃ n, i = n + 16 := ⟨i - 16, by omega⟩
  rw [schedule]
  simp only [Nat.add_sub_cancel, show n + 16 - 2 = n + 14 by omega, show n + 16 - 7 = n + 9 by omega,
    show n + 16 - 15 = n + 1 by omega]

/-- The padded buffer looks at the message below its length only. -/
theorem block_congr {f g : Nat → Byte} {L : Nat} (h : ∀ a, a < L → f a = g a) (j : Nat) : block f L j = block g L j := by
  funext m
  unfold block paddedByte
  split
  · exact h _ (by assumption)
  · rfl

/-- So does the hash state. -/
theorem hashState_congr {f g : Nat → Byte} {L : Nat} (h : ∀ a, a < L → f a = g a) (j : Nat) :
    hashState f L j = hashState g L j := by
  induction j with
  | zero => rfl
  | succ j ih => rw [hashState, hashState, ih, block_congr h]

/-- So does the digest. -/
theorem digest_congr {f g : Nat → Byte} {L : Nat} (h : ∀ a, a < L → f a = g a) : digest f L = digest g L := by
  unfold digest
  rw [hashState_congr h]

/-- The rounds look at the schedule words before them only. -/
theorem rounds_congr {h : Vector Word 8} {w w' : Nat → Word} {t : Nat} (e : ∀ i, i < t → w i = w' i) :
    rounds h w t = rounds h w' t := by
  induction t with
  | zero => rfl
  | succ t ih => rw [rounds, rounds, ih fun i hi => e i (by omega), e t (by omega)]

end Sys2Proof.Machine.Reference

namespace Sys2Proof.Machine

/-- The fold, word by word. -/
@[simp] theorem foldInto_getElem (h v : Vector Word 8) (i : Nat) (hi : i < 8) : (foldInto h v)[i] = h[i] + v[i] := by
  simp [foldInto]

/-- The serialisation, byte by byte. -/
theorem serialise_getElem (h : Vector Word 8) (n : Nat) (hn : n < 32) :
    (serialise h)[n] = byteOf h[n / 4] (n % 4) := by
  simp [serialise]

end Sys2Proof.Machine
end

