-- ==== Sys2Proof/Laws/Run.lean ====
section
/-! SUPPORT. Small facts about runs: the phase after the core's own step, the counters, the step of a host that keeps its duty,
putting runs together. -/

namespace Sys2Proof.Machine

/-- The phase after the core's own step, by the phase before it. -/
theorem coreStep_phase {s t : State} (h : coreStep s = .next t) :
    (s.resting = true ∧ t.phase = s.phase) ∨
    (s.phase = 0x1 ∧ t.phase = 0xA ∧ 2 ^ 61 ≤ s.LEN.toNat) ∨ (s.phase = 0x1 ∧ t.phase = 0x2) ∨
    (s.phase = 0x2 ∧ (t.phase = 0x2 ∨ t.phase = 0x3)) ∨ (s.phase = 0x3 ∧ (t.phase = 0x3 ∨ t.phase = 0x4)) ∨
    (s.phase = 0x4 ∧ (t.phase = 0x4 ∨ t.phase = 0x5)) ∨ (s.phase = 0x5 ∧ t.phase = 0x6) ∨
    (s.phase = 0x6 ∧ (t.phase = 0x6 ∨ t.phase = 0x7)) ∨ (s.phase = 0x7 ∧ (t.phase = 0x2 ∨ t.phase = 0x8)) ∨
    (s.phase = 0x8 ∧ t.phase = 0x9) := by
  rcases coreStep_cases h with ⟨hp, rfl⟩ | ⟨hp, hL, rfl⟩ | ⟨hp, hL, rfl⟩ | ⟨hp, rfl⟩ | ⟨hp, rfl⟩ | ⟨hp, rfl⟩ | ⟨hp, rfl⟩ |
    ⟨hp, rfl⟩ | ⟨hp, rfl⟩ | ⟨hp, rfl⟩
  · exact .inl ⟨hp, rfl⟩
  · exact .inr (.inl ⟨hp, rfl, hL⟩)
  · exact .inr (.inr (.inl ⟨hp, rfl⟩))
  · refine .inr (.inr (.inr (.inl ⟨hp, ?_⟩)))
    rcases State.nextInner_cases (s.setBlk s.loadedByte) 63 0 Phase.wld with ⟨_, e⟩ | ⟨_, e⟩ <;> rw [e] <;> simp [hp]
  · refine .inr (.inr (.inr (.inr (.inl ⟨hp, ?_⟩))))
    rcases State.nextInner_cases (s.setW s.packedWord) 15 16 Phase.wex with ⟨_, e⟩ | ⟨_, e⟩ <;> rw [e] <;> simp [hp]
  · refine .inr (.inr (.inr (.inr (.inr (.inl ⟨hp, ?_⟩)))))
    rcases State.nextInner_cases (s.setW s.expandedWord) 63 0 Phase.rin with ⟨_, e⟩ | ⟨_, e⟩ <;> rw [e] <;> simp [hp]
  · exact .inr (.inr (.inr (.inr (.inr (.inr (.inl ⟨hp, rfl⟩))))))
  · refine .inr (.inr (.inr (.inr (.inr (.inr (.inr (.inl ⟨hp, ?_⟩)))))))
    simp only [State.nextInner_phase]
    split <;> simp [hp]
  · refine .inr (.inr (.inr (.inr (.inr (.inr (.inr (.inr (.inl ⟨hp, ?_⟩))))))))
    show (if _ then _ else _) = _ ∨ (if _ then _ else _) = _
    split <;> simp
  · exact .inr (.inr (.inr (.inr (.inr (.inr (.inr (.inr (.inr ⟨hp, rfl⟩))))))))

/-- The inner counter, where it counts. -/
theorem inner_succ {k : BitVec 6} (h : k.toNat < 63) : (k + 1).toNat = k.toNat + 1 := by
  simp [BitVec.toNat_add]
  omega

/-- An accepted length has at most `2^55 + 1` blocks (R23). -/
theorem blockCount_le {L : Nat} (h : L < lengthLimit) : blockCount L ≤ 2 ^ 55 + 1 := by
  unfold lengthLimit at h
  unfold blockCount
  omega

/-- The block counter, where it counts. -/
theorem State.nextJ_toNat (s : State) (h : s.j.toNat + 1 < 2 ^ 56) : s.nextJ.toNat = s.j.toNat + 1 := by
  unfold State.nextJ
  rw [if_pos h]
  simp [BitVec.toNat_add]
  omega

/-- A host that keeps its duty is not refused. -/
theorem State.hostRefusal_of_keepsDuty {s : State} (h : s.move.keepsDuty s.LEN.toNat) : s.hostRefusal = none :=
  s.hostRefusal_eq_none.2 fun c hc => ⟨(h.2 c hc).2, fun _ hl => absurd hl (Nat.not_lt.2 (h.2 c hc).1)⟩

/-- In a busy phase the step of a host that keeps its duty is the core's own. -/
theorem step_of_busy {s u : State} (hm : s.move.keepsDuty s.LEN.toNat) (hb : s.busy = true)
    (hu : coreStep s.afterHostWrites = .next u) : step s = .next u.advance := by
  apply step_of_exec (State.hostRefusal_of_keepsDuty hm)
  rw [State.fetch_uop hm.1 (State.resting_of_busy hb), ← hu, coreStep_eq_exec]
  rfl

/-- Two runs put together. -/
theorem Steps.append {m n : Nat} {s t u : State} (h1 : Steps m s t) (h2 : Steps n t u) : Steps (m + n) s u := by
  induction m generalizing s with
  | zero =>
    cases h1
    simpa using h2
  | succ m ih =>
    obtain ⟨x, hx, h1⟩ := h1
    rw [show m + 1 + n = (m + n) + 1 by omega]
    exact ⟨x, hx, ih h1⟩

/-- The writes of the next move come first. -/
theorem State.hostWrites_succ (s : State) (n : Nat) :
    s.hostWrites (n + 1) = s.move.writes ++ (s.host.tail.take n).flatMap HostMove.writes := by
  unfold State.hostWrites State.move
  cases s.host with
  | nil => simp [HostMove.none]
  | cons m r => simp

/-- Writes at or above `L` leave the bytes below `L` as they were. -/
theorem Memory.read_writeAll_above {m : Memory} (h : m.wf = true) {cs : List Host.Cell} {L : Nat}
    (hc : ∀ c ∈ cs, L ≤ c.1 ∧ c.1 < Memory.size) {a : Nat} (ha : a < L) : (m.writeAll cs).read a = m.read a :=
  Memory.read_writeAll_other h (fun c hm => (hc c hm).2) fun c hm e => absurd (hc c hm).1 (by omega)

/-- The writes of moves that keep the duty of a run on `L` bytes are at or above `L`. -/
theorem State.hostWrites_above {s : State} {n L : Nat} (h : ∀ m ∈ s.host.take n, m.keepsDuty L) :
    ∀ c ∈ s.hostWrites n, L ≤ c.1 ∧ c.1 < Memory.size := by
  intro c hc
  obtain ⟨m, hm, hc⟩ := List.mem_flatMap.1 hc
  exact (h m hm).2 c hc

/-- The next move of a host whose next `n + 1` moves keep the duty keeps it, a move not made among them. -/
theorem State.move_keepsDuty {s : State} {n L : Nat} (h : ∀ m ∈ s.host.take (n + 1), m.keepsDuty L) :
    s.move.keepsDuty L := by
  unfold State.move
  cases hh : s.host with
  | nil => exact ⟨rfl, by simp [HostMove.none]⟩
  | cons m r => exact h m (by simp [hh])

end Sys2Proof.Machine
end

