-- ==== Sys2Proof/Tests/Slice0.lean ====
section
/-! SUPPORT. The model's own tests: words written out from the encodings of spec/30_encoding.md, ill-formed terms refused, single
steps against the vectors of spec/95_test_vectors.md (named T<n>, F<n> as there), and a witness for the hypotheses of each
obligation that has some. -/

namespace Sys2Proof.Tests

open Sys2Proof.Machine

/-- What `f` shows of the next state of an outcome, if there is one. -/
def shown {α : Type} (f : State → α) : Host.Outcome State Fault Refusal → Option α
  | .next t => some (f t)
  | .fault _ => none
  | .refused _ => none

/-- The reset state at a position of the sequencer, with a length and a block count. -/
def place (phase : BitVec 4) (j : BitVec 56) (k : BitVec 6) (len : BitVec 64) (n : BitVec 56) : State :=
  { State.reset with phase := phase, j := j, k := k, LEN := len, N := n }

/-- The memory that holds "abc" at address 0. -/
def abc : Memory := [(0, 0x61), (1, 0x62), (2, 0x63)]

/-- A move of the host without a write. -/
def pins (rst start : Bool) (len : BitVec 64) : HostMove where
  writes := []
  rst := rst
  start := start
  len := len

/-- The sequencer position, `pc` of R27. -/
def pc (s : State) : BitVec 4 × BitVec 56 × BitVec 6 := (s.phase, s.j, s.k)

/-! Well-formedness: each reserved code is refused, an operation is not. -/

theorem test_wellFormed_refuses_reservedB : Instr.wellFormed .reservedB = false := by decide
theorem test_wellFormed_refuses_reservedC : Instr.wellFormed .reservedC = false := by decide
theorem test_wellFormed_refuses_reservedD : Instr.wellFormed .reservedD = false := by decide
theorem test_wellFormed_refuses_reservedE : Instr.wellFormed .reservedE = false := by decide
theorem test_wellFormed_refuses_reservedF : Instr.wellFormed .reservedF = false := by decide
theorem test_wellFormed_accepts :
    Instr.wellFormed (.start 0xffffffffffffffff) = true ∧ Instr.wellFormed .rnd = true := by decide

/-! Decoding: the words of R63, R65 and R69, each constructor. -/

theorem test_decode_reset : decodeWord .hostcmd 0b10 = .ok (.reset false) ∧ decodeWord .hostcmd 0b11 = .ok (.reset true) := by
  decide
theorem test_decode_start : decodeTableWord 2 0b01 = some (.start 0) := by decide
theorem test_decode_start_operand : decodeTableWord 66 (4 * 0x1fffffffffffffff + 0b01) = some (.start 0x1fffffffffffffff) := by
  decide
theorem test_decode_nocmd : decodeTableWord 2 0b00 = some .nocmd := by decide
theorem test_decode_idle : decodeTableWord 4 0b0000 = some .idle := by decide
theorem test_decode_init : decodeTableWord 4 0b0001 = some .init := by decide
theorem test_decode_ldb : decodeTableWord 4 0b0010 = some .ldb := by decide
theorem test_decode_wld : decodeTableWord 4 0b0011 = some .wld := by decide
theorem test_decode_wex : decodeTableWord 4 0b0100 = some .wex := by decide
theorem test_decode_rin : decodeTableWord 4 0b0101 = some .rin := by decide
theorem test_decode_rnd : decodeTableWord 4 0b0110 = some .rnd := by decide
theorem test_decode_fld : decodeTableWord 4 0b0111 = some .fld := by decide
theorem test_decode_ser : decodeTableWord 4 0b1000 = some .ser := by decide
theorem test_decode_done : decodeTableWord 4 0b1001 = some .done := by decide
theorem test_decode_error : decodeTableWord 4 0b1010 = some .error := by decide
theorem test_decode_reserved :
    [decodeTableWord 4 0b1011, decodeTableWord 4 0b1100, decodeTableWord 4 0b1101, decodeTableWord 4 0b1110,
      decodeTableWord 4 0b1111] =
    [some .reservedB, some .reservedC, some .reservedD, some .reservedE, some .reservedF] := by decide
theorem test_decode_bits_above : decodeTableWord 4 0b10000 = none ∧ decodeTableWord 66 (2 ^ 66) = none := by decide

/-! Functions of the datapath: the tables of section 5. -/

theorem test_rotr_shr : rotr 0xdeadbeef 17 = 0xdf77ef56 ∧ rotr 0x80000000 31 = 0x00000001 ∧ shr 0xdeadbeef 3 = 0x1bd5b7dd := by
  decide
theorem test_small_sigmas :
    smallSigma0 0x00000001 = 0x02004000 ∧ smallSigma0 0xffffffff = 0x1fffffff ∧
    smallSigma1 0x00000001 = 0x0000a000 ∧ smallSigma1 0xdeadbeef = 0x689dbfec := by decide
theorem test_big_sigmas : bigSigma0 0xdeadbeef = 0xb62e25ac ∧ bigSigma1 0xdeadbeef = 0x345e14a3 := by decide
theorem test_ch_maj :
    ch 0xf0f0f0f0 0x12345678 0x9abcdef0 = 0x1a3c5e70 ∧ maj 0xf0f0f0f0 0x12345678 0x9abcdef0 = 0x92b4d6f0 := by decide
theorem test_be32 : be32 0x01 0x02 0x03 0x04 = 0x01020304 ∧ byteOf 0xe3b0c442 0 = 0xe3 ∧ byteOf 0xe3b0c442 3 = 0x42 := by decide
theorem test_hexdigit : hexdigit 9 = 0x39 ∧ hexdigit 10 = 0x61 ∧ hexdigit 15 = 0x66 := by decide

/-! The padder: the tables of section 3. -/

theorem test_block_count :
    [blockCount 0, blockCount 55, blockCount 56, blockCount 119, blockCount 120, blockCount (2 ^ 61 - 1)] =
    [1, 1, 2, 2, 3, 2 ^ 55 + 1] := by decide
theorem test_zero_count : [zeroCount 0, zeroCount 55, zeroCount 56, zeroCount 63, zeroCount 120] = [55, 0, 63, 56, 63] := by decide
theorem test_padded_bytes :
    [paddedByte abc.read 3 1 2, paddedByte abc.read 3 1 3, paddedByte abc.read 3 1 4, paddedByte abc.read 3 1 55,
      paddedByte abc.read 3 1 56, paddedByte abc.read 3 1 63] = [0x63, 0x80, 0x00, 0x00, 0x00, 0x18] := by decide
theorem test_padded_bytes_two_blocks :
    [paddedByte abc.read 56 2 56, paddedByte abc.read 56 2 57, paddedByte abc.read 56 2 119, paddedByte abc.read 56 2 126,
      paddedByte abc.read 56 2 127] = [0x80, 0x00, 0x00, 0x01, 0xc0] := by decide

/-! The message memory. -/

theorem test_memory_write_rising : Memory.write (Memory.write [] 5 0x61) 2 0x62 = [(2, 0x62), (5, 0x61)] := by decide
theorem test_memory_write_unlisted : Memory.write abc 1 0x00 = [(0, 0x61), (2, 0x63)] := by decide

/-! Host commands: T1 to T10. -/

theorem test_reset : shown (fun t => (t.phase, t.busy, t.done, t.err)) (exec (.reset false) (place 0xE 1 2 3 4)) =
    some (0x0, false, false, false) := by decide
theorem test_reset_keeps_message : shown State.MSG (exec (.reset true) { place 0x6 0 17 3 1 with MSG := abc }) = some abc := by
  decide
theorem test_start_idle : shown (fun t => (t.phase, t.LEN, t.busy)) (exec (.start 3) (place 0x0 0 0 0 0)) = some (0x1, 3, true) := by
  decide
theorem test_start_ignored : shown (fun t => (pc t, t.LEN)) (exec (.start 99) (place 0x6 0 17 3 1)) = some ((0x6, 0, 18), 3) := by
  decide
theorem test_nocmd_runs_phase : shown pc (exec .nocmd (place 0x6 0 63 3 1)) = some (0x7, 0, 0) := by decide
theorem test_idle_waits : shown pc (exec .idle (place 0x0 5 6 7 8)) = some (0x0, 5, 6) := by decide
theorem test_done_waits : shown State.done (exec .done (place 0x9 1 0 3 1)) = some true := by decide
theorem test_error_waits : shown State.err (exec .error (place 0xA 0 0 0 0)) = some true := by decide
theorem test_reserved_stuck : exec .reservedC (place 0xC 0 0 0 0) = .fault (.stuckReservedPhase 0xC) := rfl

/-! INIT: T15, T16. -/

theorem test_init_longest : shown (fun t => (pc t, t.N, t.H[0], t.H[7])) (exec .init (place 0x1 9 9 0x1fffffffffffffff 0)) =
    some ((0x2, 0, 0), 0x80000000000001, 0x6a09e667, 0x5be0cd19) := by decide
theorem test_init_too_long : shown (fun t => (pc t, t.N, t.H[0], t.err)) (exec .init (place 0x1 9 9 0x2000000000000000 7)) =
    some ((0xA, 9, 9), 7, 0, true) := by decide

/-! LDB: T20, T33. -/

theorem test_ldb_message :
    shown (fun t => (pc t, t.blk 2)) (exec .ldb { place 0x2 0 2 3 1 with MSG := abc }) = some ((0x2, 0, 3), 0x63) := by decide
theorem test_ldb_longest :
    shown (fun t => (pc t, t.blk 63)) (exec .ldb (place 0x2 0x7fffffffffffff 63 0x1fffffffffffffff 0x80000000000001)) =
    some ((0x3, 0x7fffffffffffff, 0), 0x80) := by decide

/-! WLD, WEX: T36, T40. -/

theorem test_wld_last :
    shown (fun t => (pc t, t.w 15)) (exec .wld { place 0x3 0 15 3 1 with BLK := State.reset.BLK.set 63 0x18 }) =
    some ((0x4, 0, 16), 0x18) := by decide
theorem test_wex_wraps :
    shown (fun t => (pc t, t.w 16)) (exec .wex { place 0x4 0 16 3 1 with W := Vector.replicate 64 0xffffffff }) =
    some ((0x4, 0, 17), 0x203ffffc) := by decide

/-! RIN, RND, FLD, SER: T42, T45, T47, T50, T52. -/

theorem test_rin :
    shown (fun t => (pc t, t.V)) (exec .rin { place 0x5 1 0 3 2 with H := #v[1, 2, 3, 4, 5, 6, 7, 8] }) =
    some ((0x6, 1, 0), #v[1, 2, 3, 4, 5, 6, 7, 8]) := by decide
theorem test_rnd :
    shown (fun t => (pc t, t.V)) (exec .rnd { place 0x6 0 17 3 1 with
      V := #v[0x21da9a9b, 0xb0fa238e, 0xc0645fde, 0xd932eb16, 0x8034229c, 0x07590dcd, 0x0b92f20c, 0x745a48de]
      W := State.reset.W.set 17 0x000f0000 }) =
    some ((0x6, 0, 18),
      #v[0xc2fbd9d1, 0x21da9a9b, 0xb0fa238e, 0xc0645fde, 0x846ee454, 0x8034229c, 0x07590dcd, 0x0b92f20c]) := by decide
theorem test_fld_last :
    shown (fun t => (pc t, t.H[0], t.H[7])) (exec .fld { place 0x7 0 0 3 1 with
      H := Rom.IV
      V := #v[0x506e3058, 0xd39a2165, 0x04d24d6c, 0xb85e2ce9, 0x5ef50f24, 0xfb121210, 0x948d25b6, 0x961f4894] }) =
    some ((0x8, 1, 0), 0xba7816bf, 0xf20015ad) := by decide
theorem test_fld_no_carry :
    shown (fun t => (t.phase, t.H[0], t.H[1])) (exec .fld { place 0x7 0 0 64 2 with
      H := #v[0xffffffff, 0, 0, 0, 0, 0, 0, 0], V := #v[1, 0, 0, 0, 0, 0, 0, 0] }) = some (0x2, 0, 0) := by decide
theorem test_ser :
    shown (fun t => (pc t, (t.DIGEST.toList.drop 8).take 8)) (exec .ser { place 0x8 1 0 3 1 with
      H := #v[0x00000001, 0, 0x000000ab, 0xff000000, 0x01020304, 0x80000000, 0x7fffffff, 0xffffffff] }) =
    some ((0x9, 1, 0), [0x00, 0x00, 0x00, 0xab, 0xff, 0x00, 0x00, 0x00]) := by decide

/-! The step: priority (F7, T7), the port (T31, T34), a host that breaks its duty. -/

theorem test_step_reset_wins :
    shown (fun t => (t.phase, t.err, t.host)) (step { place 0x1 0 0 0x2000000000000000 0 with host := [pins true true 3] }) =
    some (0x0, false, []) := by decide
theorem test_step_start_ignored :
    shown (fun t => (pc t, t.LEN)) (step { place 0x6 0 17 3 1 with host := [pins false true 99] }) = some ((0x6, 0, 18), 3) := by
  decide
theorem test_port_reads : (place 0x2 1 5 119 2).msgRe = true ∧ (place 0x2 1 5 119 2).msgAddr = 69 := by decide
theorem test_port_rdata : State.msgRdata { place 0x2 0 2 3 1 with MSG := abc } = 0x63 := by decide
theorem test_port_longest :
    (place 0x2 0x7fffffffffffff 62 0x1fffffffffffffff 0x80000000000001).msgAddr = 0x1ffffffffffffffe := by decide
theorem test_port_silent : (place 0x2 0 3 3 1).msgRe = false := by decide
theorem test_step_refuses_change :
    step { place 0x6 0 17 3 1 with MSG := abc, host := [{ pins false false 0 with writes := [(1, 0x00)] }] } =
    .refused (.hostChangedMessageWhileBusy 1) := rfl
theorem test_step_refuses_outside :
    step { place 0x0 0 0 0 0 with host := [{ pins false false 0 with writes := [(2 ^ 61 - 1, 0x00)] }] } =
    .refused (.hostWroteOutsideMessage (2 ^ 61 - 1)) := rfl

/-! Witnesses: a concrete state and operands that meet the hypotheses of each obligation that has some, one for each clause. -/

/-- "abc" in memory, IDLE, and a host that starts a run on it and then drives pins and writes above it. -/
def ready : State :=
  { State.reset with
    MSG := abc
    host := [pins false true 3, { pins false true 99 with writes := [(3, 0x64), (3, 0x65)] }, pins false false 0] }

/-- The same message in an ERROR state with other register values. -/
def readyAgain : State :=
  { place 0xA 7 7 0xffffffffffffffff 7 with
    MSG := [(0, 0x61), (1, 0x62), (2, 0x63), (9, 0xff)]
    H := Rom.IV
    host := [pins false true 3] }

/-- A host that starts an over-long run. -/
def overlong : State := { State.reset with host := [pins false true 0x2000000000000000, pins false true 5] }

theorem witness_DecodedWordsReencode :
    decodeWord .uop 0b0110 = .ok .rnd ∧ decodeWord .hostcmd (4 * 0xffffffffffffffff + 1) = .ok (.start 0xffffffffffffffff) ∧
    decodeWord .hostcmd 7 = .ok (.reset true) := by decide

theorem witness_ReservedCodesAreStuck :
    (0xB ≤ (place 0xB 0 0 0 0).phase.toNat ∧ (place 0xB 0 0 0 0).move.rst = false ∧ (place 0xB 0 0 0 0).hostRefusal = none) ∧
    (0xB ≤ (place 0xF 0 0 0 0).phase.toNat ∧ (place 0xF 0 0 0 0).move.rst = false ∧ (place 0xF 0 0 0 0).hostRefusal = none) ∧
    (place 0xA 0 0 0 0).phase.toNat ≤ 0xA ∧ ∃ t, step (place 0xA 0 0 0 0) = .next t :=
  ⟨by decide, by decide, by decide, _, rfl⟩

theorem witness_StepSelectsByPriority :
    (overlong.hostRefusal = none ∧ overlong.move.rst = false ∧ overlong.move.start = true ∧ overlong.phase = 0x0) ∧
    (let s := { place 0x9 1 0 3 1 with host := [pins true true 3] };
      s.hostRefusal = none ∧ s.move.rst = true) ∧
    (let s := { place 0x8 1 0 3 1 with host := [pins false true 3] };
      s.hostRefusal = none ∧ s.move.rst = false ∧ ¬ (s.move.start = true ∧ (s.phase = 0x0 ∨ s.phase = 0x9 ∨ s.phase = 0xA))) :=
  by decide

theorem witness_StepIsOutcomeOfPins : ready.hostRefusal = none := by decide

theorem witness_PlacedWordRunsNext : decodeTableWord 4 0b0110 = some .rnd ∧ decodeTableWord 2 0b01 = some (.start 0) := by decide

theorem witness_NoCommandRunsMicroOperation :
    (place 0x0 0 0 0 0).phase.toNat ≤ 0xA ∧ (place 0xA 0 0 0 0).phase.toNat ≤ 0xA := by decide

theorem witness_StartBeginsRun :
    (place 0x0 0 0 0 0).phase = 0x0 ∧ (place 0x9 0 0 0 0).phase = 0x9 ∧ (place 0xA 0 0 0 0).phase = 0xA := by decide

theorem witness_BusyStartIsIgnored :
    (place 0x1 0 0 3 0).busy = true ∧ (place 0x8 1 0 3 1).busy = true ∧ (pins false true 99).rst = false := by decide

theorem witness_ResetWinsOverEverything :
    let s := { place 0xF 1 2 3 4 with host := [pins true true 3] }
    s.move.rst = true ∧ s.hostRefusal = none := by decide

theorem witness_RestingPhaseHolds :
    let s := { place 0x9 1 0 3 1 with host := [{ pins false false 7 with writes := [(0, 0x61)] }, pins false false 0] }
    (s.phase = 0x0 ∨ s.phase = 0x9 ∨ s.phase = 0xA) ∧ ∀ m ∈ s.host.take 2, m.commandless := by
  refine ⟨by decide, ?_⟩
  simp [HostMove.commandless, pins, Memory.size]

theorem witness_InitChecksThenInitialises :
    2 ^ 61 ≤ (place 0x1 0 0 0x2000000000000000 0).LEN.toNat ∧ (place 0x1 0 0 0x1fffffffffffffff 0).LEN.toNat < 2 ^ 61 := by decide

/-- For each line of R87 an index at its boundary: `L - 1`, `L`, `L + 1`, `64*N - 9`, `64*N - 8`, `64*N - 1`, for `L = 3`, and
the last byte of the longest message's buffer. -/
theorem witness_LdbLoadsPaddedByte :
    ((place 0x2 0 2 3 1).fetch = .ldb ∧ (place 0x2 0 2 3 1).msgRe = true ∧ (place 0x2 0 2 3 1).LEN.toNat < 2 ^ 61) ∧
    (2 = 64 * (place 0x2 0 2 3 1).j.toNat + (place 0x2 0 2 3 1).k.toNat ∧ 2 < (place 0x2 0 2 3 1).LEN.toNat ∧ 2 < 64 * 1) ∧
    (3 = 64 * (place 0x2 0 3 3 1).j.toNat + (place 0x2 0 3 3 1).k.toNat ∧ 3 = (place 0x2 0 3 3 1).LEN.toNat) ∧
    (55 = 64 * (place 0x2 0 55 3 1).j.toNat + (place 0x2 0 55 3 1).k.toNat ∧
      (place 0x2 0 55 3 1).LEN.toNat < 55 ∧ 55 < 64 * (place 0x2 0 55 3 1).N.toNat - 8) ∧
    (56 = 64 * (place 0x2 0 56 3 1).j.toNat + (place 0x2 0 56 3 1).k.toNat ∧
      (place 0x2 0 56 3 1).LEN.toNat < 56 ∧ 64 * (place 0x2 0 56 3 1).N.toNat - 8 ≤ 56) ∧
    (let s := place 0x2 0x80000000000000 63 0x1fffffffffffffff 0x80000000000001;
      64 * s.j.toNat + s.k.toNat < 64 * s.N.toNat ∧ s.LEN.toNat < 2 ^ 61 ∧ s.LEN.toNat < 64 * s.j.toNat + s.k.toNat ∧
      64 * s.N.toNat - 8 ≤ 64 * s.j.toNat + s.k.toNat) := by decide

theorem witness_WldPacksBigEndian : (place 0x3 0 0 3 1).k.toNat ≤ 15 ∧ (place 0x3 0 15 3 1).k.toNat ≤ 15 := by decide

theorem witness_WexExpandsModulo : 16 ≤ (place 0x4 0 16 3 1).k.toNat ∧ 16 ≤ (place 0x4 0 63 3 1).k.toNat := by decide

theorem witness_FldFoldsAndAdvances :
    (place 0x7 0 0 3 1).j.toNat + 1 < 2 ^ 56 ∧ (place 0x7 0xfffffffffffffe 0 3 1).j.toNat + 1 < 2 ^ 56 := by decide

theorem witness_RndRunsOneRound : ∃ T1 T2 : Nat,
    (let s := { place 0x6 0 63 3 1 with V := Rom.IV };
      T1 = s.V[7].toNat + (bigSigma1 s.V[4]).toNat + (ch s.V[4] s.V[5] s.V[6]).toNat +
        (Rom.roundConstant s.k.toNat).toNat + (s.w s.k.toNat).toNat ∧
      T2 = (bigSigma0 s.V[0]).toNat + (maj s.V[0] s.V[1] s.V[2]).toNat) := ⟨_, _, rfl, rfl⟩

theorem witness_SerSerialisesBigEndian : ∃ i m i' m' : Nat, i < 8 ∧ m < 4 ∧ i' < 8 ∧ m' < 4 ∧ 4 * i + m = 0 ∧ 4 * i' + m' = 31 :=
  ⟨0, 0, 7, 3, by decide⟩

theorem witness_NoInstructionWritesMessage : ∃ t, exec .ldb { place 0x2 0 1 3 1 with MSG := abc } = .next t := ⟨_, rfl⟩

/-- A step that changes each register: INIT (`H`, `N`, `j`), RIN (`V`), WLD (`W`), LDB (`BLK`, `k`), SER (`DIGEST`), START (`LEN`). -/
theorem witness_RegisterWriters :
    shown (fun t => decide (t.H ≠ State.reset.H ∧ t.N ≠ 9 ∧ t.j ≠ 9)) (step (place 0x1 9 0 3 9)) = some true ∧
    shown (fun t => decide (t.V ≠ State.reset.V)) (step { place 0x5 0 0 3 1 with H := Rom.IV }) = some true ∧
    shown (fun t => decide (t.w 0 ≠ 0)) (step { place 0x3 0 0 3 1 with BLK := State.reset.BLK.set 0 0x61 }) = some true ∧
    shown (fun t => decide (t.blk 3 ≠ 0 ∧ t.k ≠ 3)) (step (place 0x2 0 3 3 1)) = some true ∧
    shown (fun t => decide (t.DIGEST ≠ State.reset.DIGEST)) (step { place 0x8 1 0 3 1 with H := Rom.IV }) = some true ∧
    shown (fun t => decide (t.LEN ≠ 0)) (step ready) = some true := by decide

/-- A step for each event of the three flags. -/
theorem witness_FlagsChangeByTheirEvents :
    ready.busy = false ∧ shown State.busy (step ready) = some true ∧
    (place 0x1 0 0 0x2000000000000000 0).busy = true ∧
    shown (fun t => (t.busy, t.err)) (step (place 0x1 0 0 0x2000000000000000 0)) = some (false, true) ∧
    (place 0x8 1 0 3 1).busy = true ∧ shown (fun t => (t.busy, t.done)) (step (place 0x8 1 0 3 1)) = some (false, true) ∧
    (place 0x9 1 0 3 1).done = true ∧
    shown State.done (step { place 0x9 1 0 3 1 with host := [pins false true 0] }) = some false ∧
    readyAgain.err = true ∧ shown State.err (step readyAgain) = some false := by decide

theorem witness_ErrorLeftByStartOrReset :
    readyAgain.phase = 0xA ∧ readyAgain.hostRefusal = none ∧
    { readyAgain with host := [pins true false 0] }.hostRefusal = none ∧ (place 0xA 0 0 0 0).hostRefusal = none := by decide

theorem witness_OverlongRunEndsInError : overlong.Starts (2 ^ 61) ∧ overlong.DutyKept (2 ^ 61) 1 := by
  refine ⟨⟨by decide, by decide, by decide, by decide, ?_⟩, ?_⟩
  · simp [overlong, State.move, pins]
  · simp [State.DutyKept, overlong, pins, HostMove.keepsDuty]

theorem witness_LoadFillsBlockBuffer :
    let s := { place 0x2 0 0 3 1 with MSG := abc, host := [{ pins false true 9 with writes := [(3, 0x64)] }] }
    s.MSG.wf = true ∧ s.phase = 0x2 ∧ s.k = 0 ∧ s.LEN.toNat < 2 ^ 61 ∧ s.j.toNat < s.N.toNat ∧
    ∀ m ∈ s.host.take 64, m.keepsDuty s.LEN.toNat := by
  refine ⟨by decide, by decide, by decide, by decide, by decide, ?_⟩
  simp [HostMove.keepsDuty, pins, place, Memory.size]

theorem witness_ScheduleIsComputed :
    let s := { place 0x3 0 0 3 1 with host := [{ pins false true 9 with writes := [(3, 0x64)] }] }
    s.MSG.wf = true ∧ s.phase = 0x3 ∧ s.k = 0 ∧ ∀ m ∈ s.host.take 64, m.keepsDuty s.LEN.toNat := by
  refine ⟨by decide, by decide, by decide, ?_⟩
  simp [HostMove.keepsDuty, pins, place, Memory.size]

theorem witness_CompressionIsComputed :
    let s := { place 0x5 0 0 3 1 with host := [{ pins false true 9 with writes := [(3, 0x64)] }] }
    s.MSG.wf = true ∧ s.phase = 0x5 ∧ s.j.toNat < s.N.toNat ∧ (∃ u, Steps 1 s u) ∧
    ∀ m ∈ s.host.take 66, m.keepsDuty s.LEN.toNat := by
  refine ⟨by decide, by decide, by decide, ⟨_, _, rfl, rfl⟩, ?_⟩
  simp [HostMove.keepsDuty, pins, place, Memory.size]

theorem ready_starts : ready.Starts 3 :=
  ⟨by decide, by decide, by decide, by decide, by simp [ready, State.move, pins]⟩

theorem ready_keeps_duty : ready.DutyKept 3 (194 * blockCount 3 + 2) := by
  have h : ∀ c ∈ [((3 : Nat), (0x64 : Byte)), (3, 0x65)], 3 ≤ c.1 ∧ c.1 < Memory.size := by decide
  intro m hm
  rcases List.mem_cons.1 (List.mem_of_mem_take hm) with rfl | hm
  · exact ⟨rfl, h⟩
  · rcases List.mem_cons.1 hm with rfl | hm
    · exact ⟨rfl, by simp [pins]⟩
    · cases hm

theorem readyAgain_starts : readyAgain.Starts 3 :=
  ⟨by decide, by decide, by decide, by decide, by simp [readyAgain, State.move, pins]⟩

theorem readyAgain_keeps_duty : readyAgain.DutyKept 3 (194 * blockCount 3 + 2) := by
  simp [State.DutyKept, readyAgain]

theorem witness_RunComputesDigest :
    ready.MSG.wf = true ∧ ready.Starts 3 ∧ 3 < 2 ^ 61 ∧ ready.DutyKept 3 (194 * blockCount 3 + 2) :=
  ⟨by decide, ready_starts, by decide, ready_keeps_duty⟩

theorem witness_RunsOweNothingToThePast :
    readyAgain.MSG.wf = true ∧ readyAgain.Starts 3 ∧ readyAgain.DutyKept 3 (194 * blockCount 3 + 2) ∧
    ∀ a, a < 3 → ready.afterHostWrites.MSG.read a = readyAgain.afterHostWrites.MSG.read a :=
  ⟨by decide, readyAgain_starts, readyAgain_keeps_duty, by decide⟩

theorem witness_MessageReadInOrderOnce :
    ((place 0x2 0 2 3 1).msgRe = true ∧ (place 0x2 0 2 3 1).LEN.toNat < 2 ^ 61) ∧
    readyAgain.MSG.wf = true ∧ readyAgain.Starts 3 ∧ 3 < 2 ^ 61 ∧ readyAgain.DutyKept 3 (194 * blockCount 3 + 2) :=
  ⟨by decide, by decide, readyAgain_starts, by decide, readyAgain_keeps_duty⟩

/-- Two LDB steps of runs on different messages, with different working registers. -/
theorem witness_CourseDependsOnLengthOnly :
    let s := { place 0x2 0 1 3 1 with MSG := abc }
    let s' := { place 0x2 0 1 3 1 with V := Rom.IV }
    SameCourse s s' ∧ SamePins s s' ∧ (∃ t, step s = .next t) ∧ (∃ t, step s' = .next t) ∧ s.msgRe = true :=
  ⟨⟨rfl, rfl, rfl, rfl, rfl, rfl⟩, ⟨rfl, rfl, rfl⟩, ⟨_, rfl⟩, ⟨_, rfl⟩, by decide⟩

/-- The first LDB state of a run on "abc". -/
def loading : State := { place 0x2 0 0 3 1 with MSG := abc, H := Rom.IV }

theorem loading_inv : Inv loading := by
  constructor <;> decide

theorem loading_sound : Sound loading := by
  constructor
  · intro _ _
    rfl
  · intro _ m hm
    exact absurd hm (by simp [loading, place])
  all_goals
    intro h
    exact absurd h (by decide)

/-- The FLD state of the only block of a run on "abc". -/
theorem folding_inv : Inv (place 0x7 0 0 3 1) := by
  constructor <;> decide

theorem witness_EveryStepKeepsInv : Inv loading ∧ ∃ t, step loading = .next t := ⟨loading_inv, _, rfl⟩

theorem witness_EveryStepKeepsSound : Inv loading ∧ Sound loading ∧ ∃ t, step loading = .next t :=
  ⟨loading_inv, loading_sound, _, rfl⟩

theorem witness_NoStepIsStuck : Inv loading ∧ loading.hostRefusal = none := ⟨loading_inv, by decide⟩

theorem witness_CountersNeverWrap :
    (Inv loading ∧ loading.move.rst = false ∧ (∃ t, step loading = .next t) ∧ loading.phase = 0x2 ∧ loading.msgRe = true) ∧
    (Inv (place 0x7 0 0 3 1) ∧ (place 0x7 0 0 3 1).move.rst = false ∧
      shown State.j (step (place 0x7 0 0 3 1)) = some 1) :=
  ⟨⟨loading_inv, by decide, ⟨_, rfl⟩, by decide, by decide⟩, folding_inv, by decide, by decide⟩

/-- For each clause on `k` a state at its boundary: the first and the last value of a loop, INIT on an accepted and on an over-long
length, RIN, and a resting phase. -/
theorem witness_CountersNeverWrap_k :
    (Inv (place 0x2 0 63 3 1) ∧ shown pc (step (place 0x2 0 63 3 1)) = some (0x3, 0, 0)) ∧
    (Inv (place 0x3 0 14 3 1) ∧ shown pc (step (place 0x3 0 14 3 1)) = some (0x3, 0, 15)) ∧
    (Inv (place 0x3 0 15 3 1) ∧ shown pc (step (place 0x3 0 15 3 1)) = some (0x4, 0, 16)) ∧
    (Inv (place 0x4 0 62 3 1) ∧ shown pc (step (place 0x4 0 62 3 1)) = some (0x4, 0, 63)) ∧
    (Inv (place 0x6 0 63 3 1) ∧ shown pc (step (place 0x6 0 63 3 1)) = some (0x7, 0, 0)) ∧
    (Inv (place 0x1 9 9 3 9) ∧ shown pc (step (place 0x1 9 9 3 9)) = some (0x2, 0, 0)) ∧
    (Inv (place 0x1 9 9 0x2000000000000000 9) ∧
      shown pc (step (place 0x1 9 9 0x2000000000000000 9)) = some (0xA, 9, 9)) ∧
    (Inv (place 0x5 0 0 3 1) ∧ shown pc (step (place 0x5 0 0 3 1)) = some (0x6, 0, 0)) ∧
    (Inv (place 0x0 5 6 3 1) ∧ shown pc (step (place 0x0 5 6 3 1)) = some (0x0, 5, 6)) := by
  refine ⟨⟨?_, by decide⟩, ⟨?_, by decide⟩, ⟨?_, by decide⟩, ⟨?_, by decide⟩, ⟨?_, by decide⟩, ⟨?_, by decide⟩, ⟨?_, by decide⟩,
    ⟨?_, by decide⟩, ⟨?_, by decide⟩⟩ <;> constructor <;> decide

theorem witness_MessageStableWhileBusy :
    (loading.MSG.wf = true ∧ loading.busy = true ∧ ∃ t, step loading = .next t) ∧
    (let s := { loading with host := [{ pins false false 0 with writes := [(2, 0x00)] }] };
      s.busy = true ∧ (2, 0x00) ∈ s.move.writes ∧ 2 < s.LEN.toNat ∧ 0x00 ≠ s.MSG.read 2) :=
  ⟨⟨by decide, by decide, _, rfl⟩, by decide⟩

theorem witness_CanonicalMemoryIsUnique : Memory.wf abc = true ∧ Memory.wf [(0, 0x61), (1, 0x62), (2, 0x63)] = true ∧
    ∀ a, Memory.read abc a = Memory.read [(0, 0x61), (1, 0x62), (2, 0x63)] a := ⟨by decide, by decide, fun _ => rfl⟩

theorem witness_RotationsAndShifts : ∃ n i n' i' : Nat, (1 ≤ n ∧ n ≤ 31 ∧ i < 32 ∧ i + n < 32) ∧
    (1 ≤ n' ∧ n' ≤ 31 ∧ i' < 32 ∧ 32 ≤ i' + n') := ⟨1, 30, 31, 31, by decide⟩

theorem witness_SmallSigmasByBits : ∃ i i' i'' : Nat, i < 32 ∧ i + 10 < 32 ∧ i' < 32 ∧ i' + 3 < 32 ∧ 32 ≤ i' + 10 ∧
    i'' < 32 ∧ 32 ≤ i'' + 3 := ⟨0, 28, 31, by decide⟩

theorem witness_BigSigmasByBits : ∃ i i' : Nat, i < 32 ∧ i + 25 < 32 ∧ i' < 32 ∧ 32 ≤ i' + 2 := ⟨0, 31, by decide⟩

theorem witness_ChooseAndMajority : ∃ i i' : Nat, i < 32 ∧ (0xaaaaaaaa : Word).getLsbD i = false ∧ i' < 32 ∧
    (0xaaaaaaaa : Word).getLsbD i' = true := ⟨0, 31, by decide⟩

theorem witness_ConstantsAreRootsOfPrimes :
    (Nat.Prime 2 ∧ 0 = Nat.count Nat.Prime 2) ∧ (Nat.Prime 19 ∧ 7 = Nat.count Nat.Prime 19) ∧
    (Nat.Prime 311 ∧ 63 = Nat.count Nat.Prime 311) := by decide +kernel

theorem witness_BlockCountIsLeast : ∃ L n L' : Nat, L + 9 ≤ 64 * n ∧ L + 9 = 64 ∧ L' < 2 ^ 61 ∧ L' + 1 = 2 ^ 61 :=
  ⟨55, 1, 2 ^ 61 - 1, by decide⟩

theorem witness_PaddedBufferLayout : 2 ^ 61 - 1 < 2 ^ 61 ∧ 2 ^ 55 + 1 = blockCount (2 ^ 61 - 1) := by decide

/-- The lengths 0 and 55 share a block count; two equal buffers are those of one message. -/
theorem witness_PaddingIsInjective :
    blockCount 0 = blockCount 55 ∧
    ∀ i, i < 64 * blockCount 3 → paddedByte abc.read 3 (blockCount 3) i = paddedByte abc.read 3 (blockCount 3) i :=
  ⟨by decide, fun _ _ => rfl⟩

theorem witness_DigestPortLayout : ∃ n n' : Nat, n < 32 ∧ 248 - 8 * n = 248 ∧ n' < 32 ∧ 248 - 8 * n' = 0 := ⟨0, 31, by decide⟩

theorem witness_HexPortLayout :
    (place 0x9 1 0 3 1).done = true ∧ (9#4).toNat ≤ 9 ∧ 10 ≤ (10#4).toNat ∧ ∃ c ∈ hexChars State.reset.DIGEST, c = 0x30 :=
  ⟨by decide, by decide, by decide, by decide⟩

theorem witness_HexDecodesToDigest : ∃ n n' : Nat, n < 32 ∧ n' < 32 ∧ 2 * n = 0 ∧ 2 * n' + 1 = 63 := ⟨0, 31, by decide⟩

theorem witness_DigestPortsHoldWhileDone :
    let s := { place 0x9 1 0 3 1 with host := [{ pins false false 7 with writes := [(0, 0x00)] }] }
    s.phase = 0x9 ∧ (∀ m ∈ s.host.take 1, m.rst = false ∧ m.start = false) ∧ ∃ t, Steps 1 s t :=
  ⟨by decide, by decide, _, _, rfl, rfl⟩

end Sys2Proof.Tests
end

namespace Sys2Proof.Machine

/-! The invariant `Inv`, by groups of phases: what a state of the group has to show, and that each operation keeps it. -/

variable {s t u : State}

/-- In IDLE and INIT the invariant asks for the canonical memory alone. -/
theorem Inv.of_unstarted (hm : t.MSG.wf = true) (hp : t.phase.toNat ≤ 0x1) : Inv t where
  memoryCanonical := hm
  phaseLegal := by omega
  lengthAccepted h := by omega
  countRight h := by omega
  blockInRange h := by omega
  blocksDone h := by omega
  wldRange h := by simp [h] at hp
  wexRange h := by simp [h] at hp
  innerZero h := by rcases h with h | h | h | h <;> simp [h] at hp
  errorCause h := by simp [h] at hp

/-- While a block is worked (R139 to R144). -/
theorem Inv.of_working (hm : t.MSG.wf = true) (lo : 0x2 ≤ t.phase.toNat) (hi : t.phase.toNat ≤ 0x7)
    (hL : t.LEN.toNat < lengthLimit) (hN : t.N.toNat = blockCount t.LEN.toNat) (hj : t.j.toNat < t.N.toNat)
    (hwld : t.phase = 0x3 → t.k.toNat < 16) (hwex : t.phase = 0x4 → 16 ≤ t.k.toNat)
    (hzero : t.phase = 0x5 ∨ t.phase = 0x7 → t.k = 0) : Inv t where
  memoryCanonical := hm
  phaseLegal := by omega
  lengthAccepted _ _ := hL
  countRight _ _ := hN
  blockInRange _ _ := hj
  blocksDone h := by omega
  wldRange := hwld
  wexRange := hwex
  innerZero h := by
    rcases h with h | h | h | h
    · exact hzero (.inl h)
    · exact hzero (.inr h)
    · simp [h] at hi
    · simp [h] at hi
  errorCause h := by simp [h] at hi

/-- While a block is loaded `k` is free. -/
theorem Inv.of_loading (hm : t.MSG.wf = true) (hp : t.phase = 0x2) (hL : t.LEN.toNat < lengthLimit)
    (hN : t.N.toNat = blockCount t.LEN.toNat) (hj : t.j.toNat < t.N.toNat) : Inv t :=
  Inv.of_working hm (by simp [hp]) (by simp [hp]) hL hN hj (by simp [hp]) (by simp [hp]) (by simp [hp])

/-- Once every block is worked, in SER and DONE (R144, R145). -/
theorem Inv.of_worked (hm : t.MSG.wf = true) (hp : t.phase = 0x8 ∨ t.phase = 0x9)
    (hL : t.LEN.toNat < lengthLimit) (hN : t.N.toNat = blockCount t.LEN.toNat) (hj : t.j = t.N) (hk : t.k = 0) :
    Inv t where
  memoryCanonical := hm
  phaseLegal := by rcases hp with h | h <;> simp [h]
  lengthAccepted _ _ := hL
  countRight _ _ := hN
  blockInRange _ h' := by rcases hp with h | h <;> simp [h] at h'
  blocksDone _ _ := hj
  wldRange h' := by rcases hp with h | h <;> simp [h] at h'
  wexRange h' := by rcases hp with h | h <;> simp [h] at h'
  innerZero _ := hk
  errorCause h' := by rcases hp with h | h <;> simp [h] at h'

/-- In ERROR (R161). -/
theorem Inv.of_error (hm : t.MSG.wf = true) (hp : t.phase = 0xA) (hL : lengthLimit ≤ t.LEN.toNat) : Inv t where
  memoryCanonical := hm
  phaseLegal := by simp [hp]
  lengthAccepted _ h := by simp [hp] at h
  countRight _ h := by simp [hp] at h
  blockInRange _ h := by simp [hp] at h
  blocksDone _ h := by simp [hp] at h
  wldRange h := by simp [hp] at h
  wexRange h := by simp [hp] at h
  innerZero h := by simp [hp] at h
  errorCause _ := hL

/-- The invariant does not look at the datapath registers, at the host's moves or at the counter of the free values. -/
theorem Inv.congr (h : Inv s) (hMSG : t.MSG = s.MSG) (hphase : t.phase = s.phase) (hLEN : t.LEN = s.LEN)
    (hN : t.N = s.N) (hj : t.j = s.j) (hk : t.k = s.k) : Inv t := by
  obtain ⟨h1, h2, h3, h4, h5, h6, h7, h8, h9, h10⟩ := h
  constructor <;> simpa only [hMSG, hphase, hLEN, hN, hj, hk]

/-- The host's writes keep the invariant. -/
theorem Inv.afterHostWrites (h : Inv s) (hr : s.hostRefusal = none) : Inv s.afterHostWrites :=
  { h with memoryCanonical := State.afterHostWrites_wf h.memoryCanonical hr }

/-- So does spending the host's move. -/
theorem Inv.advance (h : Inv s) : Inv s.advance := h.congr rfl rfl rfl rfl rfl rfl

/-- The block counter has room to count in every phase in which a block is worked (R31). -/
theorem Inv.j_succ_lt (h : Inv s) (lo : 0x2 ≤ s.phase.toNat) (hi : s.phase.toNat ≤ 0x7) :
    s.j.toNat + 1 < 2 ^ 56 := by
  have hN := h.countRight lo (by omega)
  have hle := blockCount_le (h.lengthAccepted lo (by omega))
  have hj := h.blockInRange lo hi
  omega

/-- The end of an inner step keeps the invariant, if `last` is the last value of the loop's range and the next phase may begin
with `k = restart`. -/
theorem Inv.nextInner (h : Inv u) {last : Nat} {restart : BitVec 6} {after : BitVec 4}
    (hp : u.phase = 0x2 ∨ u.phase = 0x3 ∨ u.phase = 0x4 ∨ u.phase = 0x6) (hlast : last ≤ 63)
    (hwld : u.phase = 0x3 → last ≤ 15)
    (hexit : 0x2 ≤ after.toNat ∧ after.toNat ≤ 0x7 ∧ (after = 0x3 → restart.toNat < 16) ∧
      (after = 0x4 → 16 ≤ restart.toNat) ∧ (after = 0x5 ∨ after = 0x7 → restart = 0)) :
    Inv (u.nextInner last restart after) := by
  have hplo : 0x2 ≤ u.phase.toNat := by rcases hp with h | h | h | h <;> simp [h]
  have hphi : u.phase.toNat ≤ 0x7 := by rcases hp with h | h | h | h <;> simp [h]
  have hL := h.lengthAccepted hplo (by omega)
  have hN := h.countRight hplo (by omega)
  have hj := h.blockInRange hplo hphi
  rcases u.nextInner_cases last restart after with ⟨hk, e⟩ | ⟨hk, e⟩ <;> rw [e]
  · have hsucc : (u.k + 1).toNat = u.k.toNat + 1 := inner_succ (by omega)
    refine Inv.of_working h.memoryCanonical hplo hphi hL hN hj (fun h3 => ?_) (fun h4 => ?_) (fun h57 => ?_)
    · have := hwld h3
      show (u.k + 1).toNat < 16
      omega
    · have := h.wexRange h4
      show 16 ≤ (u.k + 1).toNat
      omega
    · replace h57 : u.phase = 0x5 ∨ u.phase = 0x7 := h57
      rcases hp with h | h | h | h <;> simp [h] at h57
  · obtain ⟨lo, hi, hrwld, hrwex, hrzero⟩ := hexit
    exact Inv.of_working h.memoryCanonical lo hi hL hN hj hrwld hrwex hrzero

/-- The block count of an accepted length fits the register `N` (R23). -/
theorem blockCount_toNat {L : Nat} (h : L < lengthLimit) : (BitVec.ofNat 56 (blockCount L)).toNat = blockCount L := by
  have := blockCount_le h
  rw [BitVec.toNat_ofNat, Nat.mod_eq_of_lt (by omega)]

/-- FLD keeps the invariant: the counter `j` goes on to the next block, or has reached `N`. -/
theorem Inv.after_fld (h : Inv s) (hp : s.phase = 0x7) (x : Vector Word 8) :
    Inv { s with
      H := x, j := s.nextJ, k := 0
      phase := if s.j.toNat + 1 < s.N.toNat then Phase.ldb else Phase.ser } := by
  have lo : 0x2 ≤ s.phase.toNat := by simp [hp]
  have hi : s.phase.toNat ≤ 0x7 := by simp [hp]
  have hL := h.lengthAccepted lo (by omega)
  have hN := h.countRight lo (by omega)
  have hj := h.blockInRange lo hi
  have hnext := s.nextJ_toNat (h.j_succ_lt lo hi)
  by_cases hlast : s.j.toNat + 1 < s.N.toNat
  · rw [if_pos hlast]
    refine Inv.of_loading h.memoryCanonical rfl hL hN ?_
    show s.nextJ.toNat < s.N.toNat
    omega
  · rw [if_neg hlast]
    refine Inv.of_worked h.memoryCanonical (.inl rfl) hL hN (BitVec.eq_of_toNat_eq ?_) rfl
    show s.nextJ.toNat = s.N.toNat
    omega

/-- INIT on an accepted length keeps the invariant: the first of at least one block is loaded. -/
theorem Inv.after_init (h : Inv s) (hL : s.LEN.toNat < lengthLimit) :
    Inv { s with
      H := Rom.IV, N := BitVec.ofNat 56 (blockCount s.LEN.toNat), j := 0, k := 0, phase := Phase.ldb } := by
  have hN := blockCount_toNat hL
  refine Inv.of_loading h.memoryCanonical rfl hL hN ?_
  show 0 < (BitVec.ofNat 56 (blockCount s.LEN.toNat)).toNat
  rw [hN]
  exact Nat.succ_pos _

/-- SER keeps the invariant: every block is worked, before it and after it. -/
theorem Inv.after_ser (h : Inv s) (hp : s.phase = 0x8) (d : Vector Byte 32) :
    Inv { s with DIGEST := d, phase := Phase.done } := by
  have lo : 0x8 ≤ s.phase.toNat := by simp [hp]
  have hi : s.phase.toNat ≤ 0x9 := by simp [hp]
  exact Inv.of_worked h.memoryCanonical (.inr rfl) (h.lengthAccepted (by omega) hi) (h.countRight (by omega) hi)
    (h.blocksDone lo hi) (h.innerZero (.inr (.inr (.inl hp))))

/-- RIN keeps the invariant: the block stays the same, and `k` is free in the next phase. -/
theorem Inv.after_rin (h : Inv s) (hp : s.phase = 0x5) (v : Vector Word 8) :
    Inv { s with V := v, k := 0, phase := Phase.rnd } := by
  have lo : 0x2 ≤ s.phase.toNat := by simp [hp]
  have hi : s.phase.toNat ≤ 0x7 := by simp [hp]
  exact Inv.of_working h.memoryCanonical (by simp) (by simp) (h.lengthAccepted lo (by omega))
    (h.countRight lo (by omega)) (h.blockInRange lo hi) (fun h3 => by cases h3)
    (fun h4 => by cases h4) (fun _ => rfl)

/-- The core's own step keeps the invariant. -/
theorem Inv.after_coreStep (h : Inv s) (hc : coreStep s = .next t) : Inv t := by
  rcases coreStep_cases hc with ⟨hp, rfl⟩ | ⟨hp, hL, rfl⟩ | ⟨hp, hL, rfl⟩ | ⟨hp, rfl⟩ | ⟨hp, rfl⟩ | ⟨hp, rfl⟩ |
    ⟨hp, rfl⟩ | ⟨hp, rfl⟩ | ⟨hp, rfl⟩ | ⟨hp, rfl⟩
  · exact h
  · exact Inv.of_error h.memoryCanonical rfl hL
  · exact h.after_init hL
  · have hu : Inv (s.setBlk s.loadedByte) := h.congr rfl rfl rfl rfl rfl rfl
    exact hu.nextInner (.inl hp) (by simp) (by simp [hp]) (by decide)
  · have hu : Inv (s.setW s.packedWord) := h.congr rfl rfl rfl rfl rfl rfl
    exact hu.nextInner (.inr (.inl hp)) (by simp) (by simp) (by decide)
  · have hu : Inv (s.setW s.expandedWord) := h.congr rfl rfl rfl rfl rfl rfl
    exact hu.nextInner (.inr (.inr (.inl hp))) (by simp) (by simp [hp]) (by decide)
  · exact h.after_rin hp s.H
  · have hu : Inv { s with V := round s.V (Rom.roundConstant s.k.toNat) (s.w s.k.toNat) } :=
      h.congr rfl rfl rfl rfl rfl rfl
    exact hu.nextInner (.inr (.inr (.inr hp))) (by simp) (by simp [hp]) (by decide)
  · exact h.after_fld hp _
  · exact h.after_ser hp _

/-- Settles O36: RESET and START leave a phase in which the invariant asks for the canonical memory alone, and the core's own
step keeps it phase by phase. -/
theorem everyStepKeepsInv : Obligations.EveryStepKeepsInv := by
  intro s t h hstep
  obtain ⟨hr, ⟨_, rfl⟩ | ⟨_, _, _, rfl⟩ | ⟨_, _, u, hu, rfl⟩⟩ := step_cases hstep
  · exact Inv.of_unstarted (h.afterHostWrites hr).memoryCanonical (by simp)
  · exact Inv.of_unstarted (h.afterHostWrites hr).memoryCanonical (by simp)
  · exact ((h.afterHostWrites hr).after_coreStep hu).advance

end Sys2Proof.Machine

namespace Sys2Proof.Machine

/-! The invariant `Sound`, by phases: what a state of the phase has to show, and that each operation keeps it. -/

variable {s t u : State}

/-- In IDLE, INIT and ERROR nothing ties a register to the message. -/
theorem Sound.of_unbound (hp : t.phase = 0x0 ∨ t.phase = 0x1 ∨ t.phase = 0xA) : Sound t := by
  rcases hp with hp | hp | hp <;> constructor <;> simp [hp]

theorem Sound.of_ldb (hp : t.phase = 0x2) (hH : t.H = t.hashBefore)
    (hB : ∀ m, m < t.k.toNat → t.blk m = t.currentBlock m) : Sound t := by
  constructor <;> simp [hp] <;> assumption

theorem Sound.of_wld (hp : t.phase = 0x3) (hH : t.H = t.hashBefore)
    (hB : ∀ m, m < 64 → t.blk m = t.currentBlock m)
    (hW : ∀ i, i < t.k.toNat → t.w i = Reference.schedule t.currentBlock i) : Sound t := by
  constructor <;> simp [hp] <;> assumption

theorem Sound.of_wex (hp : t.phase = 0x4) (hH : t.H = t.hashBefore)
    (hW : ∀ i, i < t.k.toNat → t.w i = Reference.schedule t.currentBlock i) : Sound t := by
  constructor <;> simp [hp] <;> assumption

theorem Sound.of_rin (hp : t.phase = 0x5) (hH : t.H = t.hashBefore)
    (hW : ∀ i, i < 64 → t.w i = Reference.schedule t.currentBlock i) : Sound t := by
  constructor <;> simp [hp] <;> assumption

theorem Sound.of_rnd (hp : t.phase = 0x6) (hH : t.H = t.hashBefore)
    (hW : ∀ i, i < 64 → t.w i = Reference.schedule t.currentBlock i)
    (hV : t.V = Reference.rounds t.hashBefore (Reference.schedule t.currentBlock) t.k.toNat) : Sound t := by
  constructor <;> simp [hp] <;> assumption

theorem Sound.of_fld (hp : t.phase = 0x7) (hH : t.H = t.hashBefore)
    (hV : t.V = Reference.rounds t.hashBefore (Reference.schedule t.currentBlock) 64) : Sound t := by
  constructor <;> simp [hp] <;> assumption

theorem Sound.of_ser (hp : t.phase = 0x8) (hH : t.H = t.hashBefore) : Sound t := by
  constructor <;> simp [hp]
  exact hH

theorem Sound.of_done (hp : t.phase = 0x9) (hD : t.DIGEST = serialise t.H) : Sound t := by
  constructor <;> simp [hp]
  exact hD

/-! The two functions of a state that `Sound` speaks in, and what they depend on. -/

theorem State.currentBlock_congr (hm : ∀ a, a < s.LEN.toNat → t.MSG.read a = s.MSG.read a) (hL : t.LEN = s.LEN)
    (hj : t.j = s.j) : t.currentBlock = s.currentBlock := by
  unfold State.currentBlock
  rw [hL, hj]
  exact Reference.block_congr hm _

theorem State.hashBefore_congr (hm : ∀ a, a < s.LEN.toNat → t.MSG.read a = s.MSG.read a) (hL : t.LEN = s.LEN)
    (hj : t.j = s.j) : t.hashBefore = s.hashBefore := by
  unfold State.hashBefore
  rw [hL, hj]
  exact Reference.hashState_congr hm _

/-- The host's writes keep the agreement: in a busy phase they are not below `LEN`, and in DONE it is `DIGEST` with `H`. -/
theorem Sound.afterHostWrites (hs : Sound s) (hi : Inv s) (hr : s.hostRefusal = none) : Sound s.afterHostWrites := by
  by_cases hb : s.busy = true
  · have hread : ∀ a, a < s.LEN.toNat → s.afterHostWrites.MSG.read a = s.MSG.read a :=
      fun a => State.afterHostWrites_read hi.memoryCanonical hr hb
    have hB : s.afterHostWrites.currentBlock = s.currentBlock := State.currentBlock_congr hread rfl rfl
    have hH : s.afterHostWrites.hashBefore = s.hashBefore := State.hashBefore_congr hread rfl rfl
    obtain ⟨h1, h2, h3, h4, h5, h6, h7, h8⟩ := hs
    constructor <;> simpa [hB, hH]
  · have hrest : s.phase = 0x0 ∨ s.phase = 0x9 ∨ s.phase = 0xA := by
      rcases phase_cases s.phase hi.phaseLegal with h | h | h | h | h | h | h | h | h | h | h <;>
        simp [State.busy, busyAt, h] at hb ⊢
    rcases hrest with hp | hp | hp
    · exact Sound.of_unbound (.inl hp)
    · exact Sound.of_done hp (hs.formatted hp)
    · exact Sound.of_unbound (.inr (.inr hp))

/-- Spending the host's move keeps the agreement. -/
theorem Sound.advance (hs : Sound s) : Sound s.advance := by
  obtain ⟨h1, h2, h3, h4, h5, h6, h7, h8⟩ := hs
  exact ⟨h1, h2, h3, h4, h5, h6, h7, h8⟩

/-! LDB (R98, R99). -/

/-- In a run, LDB loads the byte of the block in work that belongs at `k`. -/
theorem Inv.loadedByte_eq (hi : Inv s) (hp : s.phase = 0x2) : s.loadedByte = s.currentBlock s.k.toNat := by
  have lo : 0x2 ≤ s.phase.toNat := by simp [hp]
  have hi7 : s.phase.toNat ≤ 0x7 := by simp [hp]
  have hL := hi.lengthAccepted lo (by omega)
  have hN := hi.countRight lo (by omega)
  have hj := hi.blockInRange lo hi7
  have hk := s.k.isLt
  have hidx : s.byteIndex < 64 * s.N.toNat := by
    unfold State.byteIndex
    omega
  have hin : s.inPaddedBuffer = true := by simp [State.inPaddedBuffer, hL, hidx]
  rw [State.loadedByte, if_pos hin, hN]
  rfl

/-- LDB extends the loaded part of the block by one byte. -/
theorem Sound.ldb_blk (hs : Sound s) (hi : Inv s) (hp : s.phase = 0x2) {m : Nat} (hm : m ≤ s.k.toNat) :
    (s.setBlk s.loadedByte).blk m = s.currentBlock m := by
  have hk := s.k.isLt
  rw [State.setBlk_blk s _ (by omega)]
  split
  · next h => rw [h, hi.loadedByte_eq hp]
  · exact hs.loading hp m (by omega)

theorem Sound.after_ldb (hs : Sound s) (hi : Inv s) (hp : s.phase = 0x2) :
    Sound ((s.setBlk s.loadedByte).nextInner 63 0 Phase.wld) := by
  have hH : s.H = s.hashBefore := hs.hash (by simp [hp]) (by simp [hp])
  have hB : ∀ m, m ≤ s.k.toNat → (s.setBlk s.loadedByte).blk m = s.currentBlock m := fun m => hs.ldb_blk hi hp
  rcases (s.setBlk s.loadedByte).nextInner_cases 63 0 Phase.wld with ⟨hk, e⟩ | ⟨hk, e⟩ <;> rw [e]
  · refine Sound.of_ldb hp hH fun m hm => hB m ?_
    have hsucc : (s.k + 1).toNat = s.k.toNat + 1 := inner_succ hk
    replace hm : m < (s.k + 1).toNat := hm
    omega
  · refine Sound.of_wld rfl hH (fun m hm => hB m ?_) fun i hlt => absurd hlt (Nat.not_lt_zero i)
    replace hk : 63 ≤ s.k.toNat := hk
    omega

/-! WLD and WEX (R105 to R107). -/

theorem Sound.packedWord_eq (hs : Sound s) (hi : Inv s) (hp : s.phase = 0x3) :
    s.packedWord = Reference.schedule s.currentBlock s.k.toNat := by
  have hk := hi.wldRange hp
  rw [State.packedWord, if_pos hk, Reference.schedule_loaded _ hk, hs.loaded hp _ (by omega),
    hs.loaded hp _ (by omega), hs.loaded hp _ (by omega), hs.loaded hp _ (by omega)]

theorem Sound.expandedWord_eq (hs : Sound s) (hi : Inv s) (hp : s.phase = 0x4) :
    s.expandedWord = Reference.schedule s.currentBlock s.k.toNat := by
  have hk := hi.wexRange hp
  have hW := hs.scheduling (.inr hp)
  rw [State.expandedWord, if_pos hk, Reference.schedule_expanded _ hk, hW _ (by omega), hW _ (by omega),
    hW _ (by omega), hW _ (by omega)]

/-- Storing the next word of the schedule extends the part of it that is there. -/
theorem Sound.setW_schedule (hs : Sound s) (hp : s.phase = 0x3 ∨ s.phase = 0x4) {x : Word}
    (hx : x = Reference.schedule s.currentBlock s.k.toNat) {i : Nat} (hle : i ≤ s.k.toNat) :
    (s.setW x).w i = Reference.schedule s.currentBlock i := by
  have hk := s.k.isLt
  rw [State.setW_w s _ (by omega)]
  split
  · next h => rw [h, hx]
  · exact hs.scheduling hp i (by omega)

theorem Sound.after_wld (hs : Sound s) (hi : Inv s) (hp : s.phase = 0x3) :
    Sound ((s.setW s.packedWord).nextInner 15 16 Phase.wex) := by
  have hH : s.H = s.hashBefore := hs.hash (by simp [hp]) (by simp [hp])
  have hW : ∀ i, i ≤ s.k.toNat → (s.setW s.packedWord).w i = Reference.schedule s.currentBlock i :=
    fun i => hs.setW_schedule (.inl hp) (hs.packedWord_eq hi hp)
  rcases (s.setW s.packedWord).nextInner_cases 15 16 Phase.wex with ⟨hk, e⟩ | ⟨hk, e⟩ <;> rw [e]
  · refine Sound.of_wld hp hH (hs.loaded hp) fun i hlt => hW i ?_
    replace hk : s.k.toNat < 15 := hk
    have hsucc : (s.k + 1).toNat = s.k.toNat + 1 := inner_succ (by omega)
    replace hlt : i < (s.k + 1).toNat := hlt
    omega
  · refine Sound.of_wex rfl hH fun i hlt => hW i ?_
    replace hk : 15 ≤ s.k.toNat := hk
    replace hlt : i < 16 := hlt
    omega

theorem Sound.after_wex (hs : Sound s) (hi : Inv s) (hp : s.phase = 0x4) :
    Sound ((s.setW s.expandedWord).nextInner 63 0 Phase.rin) := by
  have hH : s.H = s.hashBefore := hs.hash (by simp [hp]) (by simp [hp])
  have hW : ∀ i, i ≤ s.k.toNat → (s.setW s.expandedWord).w i = Reference.schedule s.currentBlock i :=
    fun i => hs.setW_schedule (.inr hp) (hs.expandedWord_eq hi hp)
  rcases (s.setW s.expandedWord).nextInner_cases 63 0 Phase.rin with ⟨hk, e⟩ | ⟨hk, e⟩ <;> rw [e]
  · refine Sound.of_wex hp hH fun i hlt => hW i ?_
    have hsucc : (s.k + 1).toNat = s.k.toNat + 1 := inner_succ hk
    replace hlt : i < (s.k + 1).toNat := hlt
    omega
  · refine Sound.of_rin rfl hH fun i hlt => hW i ?_
    replace hk : 63 ≤ s.k.toNat := hk
    omega

/-! RIN, RND and FLD (R117, R118, R120 to R122). -/

theorem Sound.after_rin (hs : Sound s) (hp : s.phase = 0x5) :
    Sound { s with V := s.H, k := 0, phase := Phase.rnd } := by
  have hH : s.H = s.hashBefore := hs.hash (by simp [hp]) (by simp [hp])
  exact Sound.of_rnd rfl hH (hs.scheduled (.inl hp)) hH

/-- RND takes the working registers from round `k` to round `k + 1`. -/
theorem Sound.rnd_round (hs : Sound s) (hp : s.phase = 0x6) :
    round s.V (Rom.roundConstant s.k.toNat) (s.w s.k.toNat) =
      Reference.rounds s.hashBefore (Reference.schedule s.currentBlock) (s.k.toNat + 1) := by
  rw [Reference.rounds, ← hs.working hp, ← hs.scheduled (.inr hp) _ s.k.isLt]

theorem Sound.after_rnd (hs : Sound s) (hp : s.phase = 0x6) :
    Sound ({ s with V := round s.V (Rom.roundConstant s.k.toNat) (s.w s.k.toNat) }.nextInner 63 0 Phase.fld) := by
  have hH : s.H = s.hashBefore := hs.hash (by simp [hp]) (by simp [hp])
  have hV := hs.rnd_round hp
  rcases State.nextInner_cases { s with V := round s.V (Rom.roundConstant s.k.toNat) (s.w s.k.toNat) } 63 0 Phase.fld
    with ⟨hk, e⟩ | ⟨hk, e⟩ <;> rw [e]
  · have hsucc : (s.k + 1).toNat = s.k.toNat + 1 := inner_succ hk
    exact Sound.of_rnd hp hH (hs.scheduled (.inr hp)) (by rw [← hsucc] at hV; exact hV)
  · have hlast : s.k.toNat + 1 = 64 := by
      have := s.k.isLt
      replace hk : 63 ≤ s.k.toNat := hk
      omega
    exact Sound.of_fld rfl hH (by rw [hlast] at hV; exact hV)

/-- FLD takes the hash state from block `j` to block `j + 1`. -/
theorem Sound.fld_fold (hs : Sound s) (hp : s.phase = 0x7) :
    foldInto s.H s.V = Reference.hashState s.MSG.read s.LEN.toNat (s.j.toNat + 1) := by
  rw [hs.worked hp, hs.hash (by simp [hp]) (by simp [hp])]
  rfl

theorem Sound.after_fld (hs : Sound s) (hi : Inv s) (hp : s.phase = 0x7) :
    Sound { s with
      H := foldInto s.H s.V, j := s.nextJ, k := 0
      phase := if s.j.toNat + 1 < s.N.toNat then Phase.ldb else Phase.ser } := by
  have hnext : s.nextJ.toNat = s.j.toNat + 1 := s.nextJ_toNat (hi.j_succ_lt (by simp [hp]) (by simp [hp]))
  have hH : foldInto s.H s.V = Reference.hashState s.MSG.read s.LEN.toNat s.nextJ.toNat := by
    rw [hnext, hs.fld_fold hp]
  split
  · exact Sound.of_ldb rfl hH fun m hm => absurd hm (Nat.not_lt_zero m)
  · exact Sound.of_ser rfl hH

/-- The core's own step keeps the registers in agreement with the reference function. -/
theorem Sound.after_coreStep (hs : Sound s) (hi : Inv s) (hc : coreStep s = .next t) : Sound t := by
  rcases coreStep_cases hc with ⟨hp, rfl⟩ | ⟨hp, hL, rfl⟩ | ⟨hp, hL, rfl⟩ | ⟨hp, rfl⟩ | ⟨hp, rfl⟩ | ⟨hp, rfl⟩ |
    ⟨hp, rfl⟩ | ⟨hp, rfl⟩ | ⟨hp, rfl⟩ | ⟨hp, rfl⟩
  · exact hs
  · exact Sound.of_unbound (.inr (.inr rfl))
  · exact Sound.of_ldb rfl rfl fun m hm => absurd hm (Nat.not_lt_zero m)
  · exact hs.after_ldb hi hp
  · exact hs.after_wld hi hp
  · exact hs.after_wex hi hp
  · exact hs.after_rin hp
  · exact hs.after_rnd hp
  · exact hs.after_fld hi hp
  · exact Sound.of_done rfl rfl

end Sys2Proof.Machine

namespace Sys2Proof.Machine

/-! A run to its end: how many steps it still takes, that each step is one of them, and the digest it ends with. -/

variable {s t u : State} {msg : Nat → Byte} {L : Nat}

/-- In each of the eleven phases the core has a step of its own. -/
theorem exists_coreStep (h : s.phase.toNat ≤ 0xA) : ∃ t, coreStep s = .next t := by
  rw [coreStep_eq_exec]
  rcases phase_cases s.phase h with hp | hp | hp | hp | hp | hp | hp | hp | hp | hp | hp <;> rw [hp]
  case inr.inl =>
    show ∃ t, execInit s = .next t
    unfold execInit
    split <;> exact ⟨_, rfl⟩
  all_goals exact ⟨_, rfl⟩

/-- The core's own step leaves the message, the length and the host's moves alone. -/
theorem coreStep_frame (h : coreStep s = .next t) : t.MSG = s.MSG ∧ t.LEN = s.LEN ∧ t.host = s.host := by
  rcases coreStep_cases h with ⟨-, rfl⟩ | ⟨-, -, rfl⟩ | ⟨-, -, rfl⟩ | ⟨-, rfl⟩ | ⟨-, rfl⟩ | ⟨-, rfl⟩ | ⟨-, rfl⟩ |
    ⟨-, rfl⟩ | ⟨-, rfl⟩ | ⟨-, rfl⟩ <;> simp

/-- How many of the 194 steps of the block in work are taken, in a phase from LDB to FLD. -/
def blockSteps (phase : BitVec 4) (k : Nat) : Nat :=
  match phase with
  | 0x2#4 => k
  | 0x3#4 => 64 + k
  | 0x4#4 => 64 + k
  | 0x5#4 => 128
  | 0x6#4 => 129 + k
  | 0x7#4 => 193
  | _ => 0

/-- How many steps a run on an accepted length takes until it is in SER, from a busy phase. -/
def State.stepsToSer (s : State) : Nat :=
  if s.phase = 0x1 then 194 * blockCount s.LEN.toNat + 1
  else if s.phase = 0x8 then 0
  else 194 * (s.N.toNat - s.j.toNat) - blockSteps s.phase s.k.toNat

theorem State.stepsToSer_init (hp : s.phase = 0x1) : s.stepsToSer = 194 * blockCount s.LEN.toNat + 1 := if_pos hp

theorem State.stepsToSer_ser (hp : s.phase = 0x8) : s.stepsToSer = 0 := by
  simp [State.stepsToSer, hp]

theorem State.stepsToSer_working (lo : 0x2 ≤ s.phase.toNat) (hi : s.phase.toNat ≤ 0x7) :
    s.stepsToSer = 194 * (s.N.toNat - s.j.toNat) - blockSteps s.phase s.k.toNat := by
  have h1 : s.phase ≠ 0x1 := fun h => by simp [h] at lo
  have h8 : s.phase ≠ 0x8 := fun h => by simp [h] at hi
  rw [State.stepsToSer, if_neg h1, if_neg h8]

theorem blockSteps_le (p : BitVec 4) (k : BitVec 6) : blockSteps p k.toNat ≤ 193 := by
  have := k.isLt
  unfold blockSteps
  split <;> omega

/-- A step from one place of a block to the next place of the same block brings SER one step nearer. -/
theorem State.stepsToSer_sameBlock (hN : t.N = s.N) (hj : t.j = s.j) (hlt : s.j.toNat < s.N.toNat)
    (hs : 0x2 ≤ s.phase.toNat ∧ s.phase.toNat ≤ 0x7) (ht : 0x2 ≤ t.phase.toNat ∧ t.phase.toNat ≤ 0x7)
    (hb : blockSteps t.phase t.k.toNat = blockSteps s.phase s.k.toNat + 1) : t.stepsToSer + 1 = s.stepsToSer := by
  have hle := blockSteps_le t.phase t.k
  rw [State.stepsToSer_working hs.1 hs.2, State.stepsToSer_working ht.1 ht.2, hN, hj, hb]
  omega

/-- Whether it counts up or leaves its loop, the end of an inner step brings SER one step nearer. -/
theorem State.nextInner_stepsToSer {last : Nat} {restart : BitVec 6} {after : BitVec 4}
    (hp : u.phase = 0x2 ∨ u.phase = 0x3 ∨ u.phase = 0x4 ∨ u.phase = 0x6) (hlt : u.j.toNat < u.N.toNat)
    (hk : u.k.toNat ≤ last) (hlast : last ≤ 63)
    (hexit : (0x2 ≤ after.toNat ∧ after.toNat ≤ 0x7) ∧ blockSteps after restart.toNat = blockSteps u.phase last + 1) :
    (u.nextInner last restart after).stepsToSer + 1 = u.stepsToSer := by
  have hu : 0x2 ≤ u.phase.toNat ∧ u.phase.toNat ≤ 0x7 := by rcases hp with h | h | h | h <;> simp [h]
  rcases u.nextInner_cases last restart after with ⟨hk', e⟩ | ⟨hk', e⟩ <;> rw [e]
  · refine State.stepsToSer_sameBlock rfl rfl hlt hu hu ?_
    have hsucc : (u.k + 1).toNat = u.k.toNat + 1 := inner_succ (by omega)
    show blockSteps u.phase (u.k + 1).toNat = _
    rw [hsucc]
    rcases hp with h | h | h | h <;> simp [h, blockSteps] <;> omega
  · refine State.stepsToSer_sameBlock rfl rfl hlt hu hexit.1 ?_
    rw [Nat.le_antisymm hk hk']
    exact hexit.2

/-- FLD begins the next block or, after the last, SER; either way SER is one step nearer. -/
theorem Inv.fld_stepsToSer (hi : Inv s) (hp : s.phase = 0x7) (x : Vector Word 8) :
    State.stepsToSer { s with
      H := x, j := s.nextJ, k := 0
      phase := if s.j.toNat + 1 < s.N.toNat then Phase.ldb else Phase.ser } + 1 = s.stepsToSer := by
  have lo : 0x2 ≤ s.phase.toNat := by simp [hp]
  have hi7 : s.phase.toNat ≤ 0x7 := by simp [hp]
  have hlt := hi.blockInRange lo hi7
  have hnext := s.nextJ_toNat (hi.j_succ_lt lo hi7)
  have hb : blockSteps s.phase s.k.toNat = 193 := by simp [hp, blockSteps]
  rw [State.stepsToSer_working lo hi7, hb]
  split
  · rw [State.stepsToSer_working (by simp) (by simp)]
    show 194 * (s.N.toNat - s.nextJ.toNat) - 0 + 1 = _
    omega
  · rw [State.stepsToSer_ser rfl]
    omega

/-- In a run on an accepted length, every step of the core but SER brings SER one step nearer. -/
theorem Inv.coreStep_stepsToSer (hi : Inv s) (hb : s.busy = true) (hser : s.phase ≠ 0x8)
    (hL : s.LEN.toNat < lengthLimit) (hc : coreStep s = .next t) : t.stepsToSer + 1 = s.stepsToSer := by
  have hk := s.k.isLt
  rcases coreStep_cases hc with ⟨hp, rfl⟩ | ⟨hp, hL', rfl⟩ | ⟨hp, -, rfl⟩ | ⟨hp, rfl⟩ | ⟨hp, rfl⟩ | ⟨hp, rfl⟩ |
    ⟨hp, rfl⟩ | ⟨hp, rfl⟩ | ⟨hp, rfl⟩ | ⟨hp, rfl⟩
  · rw [State.resting_of_busy hb] at hp
    cases hp
  · omega
  · rw [State.stepsToSer_init hp, State.stepsToSer_working (by simp) (by simp)]
    show 194 * ((BitVec.ofNat 56 (blockCount s.LEN.toNat)).toNat - 0) - 0 + 1 = _
    rw [blockCount_toNat hL]
    omega
  · have hlt := hi.blockInRange (by simp [hp]) (by simp [hp])
    exact State.nextInner_stepsToSer (.inl hp) hlt (by simp; omega) (by simp) (by simp [hp, blockSteps])
  · have hlt := hi.blockInRange (by simp [hp]) (by simp [hp])
    have := hi.wldRange hp
    exact State.nextInner_stepsToSer (.inr (.inl hp)) hlt (by simp; omega) (by simp) (by simp [hp, blockSteps])
  · have hlt := hi.blockInRange (by simp [hp]) (by simp [hp])
    exact State.nextInner_stepsToSer (.inr (.inr (.inl hp))) hlt (by simp; omega) (by simp) (by simp [hp, blockSteps])
  · have hlt := hi.blockInRange (by simp [hp]) (by simp [hp])
    refine State.stepsToSer_sameBlock rfl rfl hlt (by simp [hp]) (by simp) ?_
    simp [hp, blockSteps]
  · have hlt := hi.blockInRange (by simp [hp]) (by simp [hp])
    exact State.nextInner_stepsToSer (.inr (.inr (.inr hp))) hlt (by simp; omega) (by simp) (by simp [hp, blockSteps])
  · exact hi.fld_stepsToSer hp _
  · exact absurd hp hser

/-- In a run on an accepted length, every step of the core but SER leaves it busy. -/
theorem busy_of_coreStep (hb : s.busy = true) (hser : s.phase ≠ 0x8) (hL : s.LEN.toNat < lengthLimit)
    (hc : coreStep s = .next t) : t.busy = true := by
  unfold lengthLimit at hL
  rcases coreStep_phase hc with ⟨hp, -⟩ | ⟨-, -, hL'⟩ | ⟨-, hp⟩ | ⟨-, hp | hp⟩ | ⟨-, hp | hp⟩ | ⟨-, hp | hp⟩ | ⟨-, hp⟩ |
    ⟨-, hp | hp⟩ | ⟨-, hp | hp⟩ | ⟨hp, -⟩
  case inl =>
    rw [State.resting_of_busy hb] at hp
    cases hp
  case inr.inl => omega
  case inr.inr.inr.inr.inr.inr.inr.inr.inr => exact absurd hp hser
  all_goals simp [State.busy, busyAt, hp]

/-- The state `s` is in a run on the `L` bytes of `msg`, at one of the states from INIT to SER. -/
structure State.Running (msg : Nat → Byte) (L : Nat) (s : State) : Prop where
  inv : Inv s
  sound : Sound s
  len : s.LEN.toNat = L
  accepted : L < lengthLimit
  message : ∀ a, a < L → s.MSG.read a = msg a
  busy : s.busy = true

/-- The writes of a host that keeps its duty leave the run as it is. -/
theorem State.Running.afterHostWrites (h : s.Running msg L) (hr : s.hostRefusal = none) :
    s.afterHostWrites.Running msg L where
  inv := h.inv.afterHostWrites hr
  sound := h.sound.afterHostWrites h.inv hr
  len := h.len
  accepted := h.accepted
  message a ha := by
    rw [State.afterHostWrites_read h.inv.memoryCanonical hr h.busy (by rw [h.len]; exact ha), h.message a ha]
  busy := h.busy

/-- Before SER, the run of a host that keeps its duty goes on, and SER is one step nearer. -/
theorem State.Running.step (h : s.Running msg L) (hm : s.move.keepsDuty L) (hser : s.phase ≠ 0x8) :
    ∃ t, step s = .next t ∧ t.Running msg L ∧ t.stepsToSer + 1 = s.stepsToSer ∧ t.host = s.host.tail := by
  rw [← h.len] at hm
  obtain ⟨inv, sound, len, accepted, message, busy⟩ := h.afterHostWrites (State.hostRefusal_of_keepsDuty hm)
  have hL : s.LEN.toNat < lengthLimit := by rw [h.len]; exact accepted
  obtain ⟨u, hu⟩ := exists_coreStep inv.phaseLegal
  obtain ⟨hMSG, hLEN, hhost⟩ := coreStep_frame hu
  have hleft := inv.coreStep_stepsToSer busy hser hL hu
  have hbusy := busy_of_coreStep busy hser hL hu
  refine ⟨u.advance, step_of_busy hm h.busy hu, ?_, hleft, congrArg List.tail hhost⟩
  exact {
    inv := (inv.after_coreStep hu).advance
    sound := (sound.after_coreStep inv hu).advance
    len := by rw [State.advance_LEN, hLEN, len]
    accepted := accepted
    message := fun a ha => by rw [State.advance_MSG, hMSG, message a ha]
    busy := hbusy }

/-- In SER the hash state is that of the whole message. -/
theorem State.Running.hash_ser (h : s.Running msg L) (hser : s.phase = 0x8) :
    s.H = Reference.hashState msg L (blockCount L) := by
  have hN : s.j.toNat = blockCount L := by
    rw [h.inv.blocksDone (by simp [hser]) (by simp [hser]), h.inv.countRight (by simp [hser]) (by simp [hser]), h.len]
  rw [h.sound.hash (by simp [hser]) (by simp [hser]), State.hashBefore, h.len, hN]
  exact Reference.hashState_congr h.message _

/-- In SER, the step of a host that keeps its duty ends in DONE with the digest of the message. -/
theorem State.Running.step_ser (h : s.Running msg L) (hm : s.move.keepsDuty L) (hser : s.phase = 0x8) :
    ∃ t, Machine.step s = .next t ∧ t.phase = 0x9 ∧ t.DIGEST = Reference.digest msg L := by
  have hcore : coreStep s.afterHostWrites =
      .next { s.afterHostWrites with DIGEST := serialise s.H, phase := Phase.done } := by
    rw [coreStep_eq_exec, State.afterHostWrites_phase, hser]
    rfl
  refine ⟨_, step_of_busy (by rw [h.len]; exact hm) h.busy hcore, rfl, ?_⟩
  show serialise s.H = _
  rw [h.hash_ser hser, Reference.digest]

/-- The run of a host that keeps its duty comes to SER, after as many steps as `stepsToSer` says. -/
theorem State.Running.reaches_ser {n : Nat} (h : s.Running msg L) (hn : s.stepsToSer = n)
    (hm : ∀ m ∈ s.host.take (n + 1), m.keepsDuty L) :
    ∃ t, Steps n s t ∧ t.Running msg L ∧ t.phase = 0x8 ∧ t.move.keepsDuty L := by
  induction n generalizing s with
  | zero =>
    by_cases hser : s.phase = 0x8
    · exact ⟨s, rfl, h, hser, State.move_keepsDuty hm⟩
    · obtain ⟨t, -, -, hleft, -⟩ := h.step (State.move_keepsDuty hm) hser
      omega
  | succ n ih =>
    have hser : s.phase ≠ 0x8 := fun hser => by
      rw [State.stepsToSer_ser hser] at hn
      omega
    obtain ⟨t, hst, ht, hleft, hhost⟩ := h.step (State.move_keepsDuty hm) hser
    have hm' : ∀ m ∈ t.host.take (n + 1), m.keepsDuty L := fun m hmt => hm m <| List.mem_of_mem_tail <| by
      rwa [List.tail_take_eq_take_tail, ← hhost]
    obtain ⟨v, hv, hrest⟩ := ih ht (by omega) hm'
    exact ⟨v, ⟨t, hst, hv⟩, hrest⟩

/-- A start on an accepted length begins a run on the message that the host's writes of the same move leave in MSG. -/
theorem State.Starts.running (h : s.Starts L) (hm : s.MSG.wf = true) (hL : L < lengthLimit) :
    ∃ t, step s = .next t ∧ t.Running s.afterHostWrites.MSG.read L ∧
      t.stepsToSer = 194 * blockCount L + 1 ∧ t.host = s.host.tail := by
  have hidle : s.busy ≠ true := fun hb => by
    have := h.resting
    rw [State.resting_of_busy hb] at this
    cases this
  have hr : s.hostRefusal = none := s.hostRefusal_eq_none.2 fun c hc => ⟨h.writes c hc, fun hb => absurd hb hidle⟩
  have hexec : exec s.fetch s.afterHostWrites = .next (s.afterHostWrites.beginRun s.move.len) := by
    rw [State.fetch_start h.noReset h.start h.resting]
    exact if_pos h.resting
  refine ⟨_, step_of_exec hr hexec, ?_, ?_, rfl⟩
  · exact {
      inv := Inv.of_unstarted (State.afterHostWrites_wf hm hr) (by simp)
      sound := Sound.of_unbound (.inr (.inl rfl))
      len := h.len
      accepted := hL
      message := fun _ _ => rfl
      busy := rfl }
  · rw [State.stepsToSer_init rfl]
    show 194 * blockCount s.move.len.toNat + 1 = _
    rw [h.len]

/-- R147: a run on an accepted length, under a host that keeps its duty, ends in DONE after `194*N + 3` steps with the digest of the
message. -/
theorem State.Starts.reaches_done (h : s.Starts L) (hm : s.MSG.wf = true) (hL : L < lengthLimit)
    (hd : s.DutyKept L (194 * blockCount L + 2)) :
    ∃ t, Steps (194 * blockCount L + 3) s t ∧ t.phase = 0x9 ∧
      t.DIGEST = Reference.digest s.afterHostWrites.MSG.read L := by
  obtain ⟨u, hsu, hu, hleft, hhost⟩ := h.running hm hL
  obtain ⟨v, huv, hv, hser, hmove⟩ := hu.reaches_ser hleft (by rw [hhost]; exact hd)
  obtain ⟨t, hvt, hdone, hD⟩ := hv.step_ser hmove hser
  exact ⟨t, ⟨u, hsu, huv.append (n := 1) ⟨t, hvt, rfl⟩⟩, hdone, hD⟩

/-- Settles O32: each of the two runs ends with the digest of its own message, and the digest looks at the message below its length
only. -/
theorem runsOweNothingToThePast : Obligations.RunsOweNothingToThePast := by
  intro s s' L hm hm' hs hs' hL hd hd' hmsg
  obtain ⟨t, hst, hp, hD⟩ := hs.reaches_done hm hL hd
  obtain ⟨t', hst', hp', hD'⟩ := hs'.reaches_done hm' hL hd'
  have hdone : t.done = true := by simp [State.done, hp]
  have hdone' : t'.done = true := by simp [State.done, hp']
  have hDD : t.DIGEST = t'.DIGEST := by rw [hD, hD', Reference.digest_congr hmsg]
  refine ⟨t, t', hst, hst', hdone, hdone', hDD, ?_, ?_⟩
  · simp [State.digestPort, hdone, hdone', hDD]
  · simp [State.hexPort, hdone, hdone', hDD]

end Sys2Proof.Machine

namespace Sys2Proof.Machine

/-! What one step changes: the registers by their writers, the flags by their events. -/

variable {s t : State}

/-- Each datapath register, block count and counter is changed by the core's own step only in the phases of its writers. -/
theorem coreStep_writers (h : coreStep s = .next t) :
    (t.H ≠ s.H → s.phase = 0x1 ∨ s.phase = 0x7) ∧
    (t.V ≠ s.V → s.phase = 0x5 ∨ s.phase = 0x6) ∧
    (t.W ≠ s.W → s.phase = 0x3 ∨ s.phase = 0x4) ∧
    (t.BLK ≠ s.BLK → s.phase = 0x2) ∧
    (t.DIGEST ≠ s.DIGEST → s.phase = 0x8) ∧
    (t.N ≠ s.N → s.phase = 0x1) ∧
    (t.j ≠ s.j → s.phase = 0x1 ∨ s.phase = 0x7) ∧
    (t.k ≠ s.k → 0x1 ≤ s.phase.toNat ∧ s.phase.toNat ≤ 0x7) := by
  rcases coreStep_cases h with ⟨-, rfl⟩ | ⟨hp, -, rfl⟩ | ⟨hp, -, rfl⟩ | ⟨hp, rfl⟩ | ⟨hp, rfl⟩ | ⟨hp, rfl⟩ | ⟨hp, rfl⟩ |
    ⟨hp, rfl⟩ | ⟨hp, rfl⟩ | ⟨hp, rfl⟩
  case inl => simp
  all_goals simp [hp]

/-- Settles O24: an accepted START writes `LEN` and `phase` alone, and the core's own step never writes `LEN`. -/
theorem registerWriters : Obligations.RegisterWriters := by
  intro s t hstep hrst
  obtain ⟨-, ⟨hrst', -⟩ | ⟨-, hstart, hrest, rfl⟩ | ⟨-, -, u, hu, rfl⟩⟩ := step_cases hstep
  · rw [hrst] at hrst'
    cases hrst'
  · simp [hstart, hrest]
  · obtain ⟨hH, hV, hW, hBLK, hDIGEST, hN, hj, hk⟩ := coreStep_writers hu
    have hLEN : u.LEN = s.LEN := (coreStep_frame hu).2.1
    exact ⟨hH, hV, hW, hBLK, hDIGEST, fun h => absurd hLEN h, hN, hj, hk⟩

/-! The flags with the phases as numerals, as a rule prints them. -/

theorem State.busy_eq (s : State) : s.busy = (decide (0x1 ≤ s.phase.toNat) && decide (s.phase.toNat ≤ 0x8)) := rfl

theorem State.done_eq (s : State) : s.done = decide (s.phase = 0x9) := by
  rw [Bool.eq_iff_iff]
  simp [State.done]

theorem State.err_eq (s : State) : s.err = decide (s.phase = 0xA) := by
  rw [Bool.eq_iff_iff]
  simp [State.err]

/-- In a legal phase exactly one of IDLE and the three flags holds (R28). -/
theorem State.one_flag (h : s.phase.toNat ≤ 0xA) :
    (if s.phase = 0x0 then 1 else 0) + s.busy.toNat + s.done.toNat + s.err.toNat = 1 := by
  rcases phase_cases s.phase h with hp | hp | hp | hp | hp | hp | hp | hp | hp | hp | hp <;>
    simp [State.busy_eq, State.done_eq, State.err_eq, hp]

/-- The flags before and after the core's own step: they stay, INIT refuses the length, or SER ends the run. -/
theorem coreStep_flags (h : coreStep s = .next t) :
    (t.busy = s.busy ∧ t.done = s.done ∧ t.err = s.err) ∨
    (s.phase = 0x1 ∧ 2 ^ 61 ≤ s.LEN.toNat ∧ t.phase = 0xA) ∨ (s.phase = 0x8 ∧ t.phase = 0x9) := by
  rcases coreStep_phase h with ⟨-, hp'⟩ | ⟨hp, hp', hL⟩ | ⟨hp, hp'⟩ | ⟨hp, hp' | hp'⟩ | ⟨hp, hp' | hp'⟩ |
    ⟨hp, hp' | hp'⟩ | ⟨hp, hp'⟩ | ⟨hp, hp' | hp'⟩ | ⟨hp, hp' | hp'⟩ | ⟨hp, hp'⟩
  case inl => exact .inl (by simp [State.busy_eq, State.done_eq, State.err_eq, hp'])
  case inr.inl => exact .inr (.inl ⟨hp, hL, hp'⟩)
  case inr.inr.inr.inr.inr.inr.inr.inr.inr => exact .inr (.inr ⟨hp, hp'⟩)
  all_goals exact .inl (by simp [State.busy_eq, State.done_eq, State.err_eq, hp, hp'])

/-- With neither `rst` nor an accepted `start` the step is the core's own. -/
theorem State.fetch_uop_of_no_command (hrst : s.move.rst = false) (hno : ¬ (s.move.start = true ∧ s.resting = true)) :
    s.fetch = decodeUop s.phase := by
  rcases s.fetch_cases with ⟨h, -⟩ | ⟨-, h, h', -⟩ | ⟨-, -, h⟩
  · rw [hrst] at h
    cases h
  · exact absurd ⟨h, h'⟩ hno
  · exact h

/-- Settles O25: RESET goes to IDLE and START to INIT; the core's own step changes a flag in INIT, on an over-long length, and in
SER alone. -/
theorem flagsChangeByTheirEvents : Obligations.FlagsChangeByTheirEvents := by
  refine ⟨fun s => s.one_flag, fun s t _ hstep => ?_⟩
  obtain ⟨-, ⟨hrst, rfl⟩ | ⟨hrst, hstart, hrest, rfl⟩ | ⟨hrst, hno, u, hu, rfl⟩⟩ := step_cases hstep
  · simp [State.fetch_reset hrst, State.busy_eq, State.done_eq, State.err_eq, Phase.idle]
  · rcases s.resting_iff.1 hrest with hp | hp | hp <;>
      simp [State.fetch_start hrst hstart hrest, State.busy_eq, State.done_eq, State.err_eq, hp, Phase.init]
  · have hfetch := State.fetch_uop_of_no_command hrst hno
    rcases coreStep_flags hu with ⟨hb, hd, he⟩ | ⟨hp, hL, hp'⟩ | ⟨hp, hp'⟩
    · replace hb : u.advance.busy = s.busy := hb
      replace hd : u.advance.done = s.done := hd
      replace he : u.advance.err = s.err := he
      simp +contextual [hb, hd, he]
    · replace hp : s.phase = 0x1 := hp
      have hinit : s.fetch = .init := by rw [hfetch, hp]; rfl
      simpa [hinit, State.busy_eq, State.done_eq, State.err_eq, hp, hp'] using hL
    · replace hp : s.phase = 0x8 := hp
      have hser : s.fetch = .ser := by rw [hfetch, hp]; rfl
      simp [hser, State.busy_eq, State.done_eq, State.err_eq, hp, hp']

end Sys2Proof.Machine

namespace Sys2Proof.Machine

/-! R31: the counters `j` and `k`, the index and the bit length never wrap. -/

variable {s t u : State}

/-- At the end of an inner step `k` counts up inside the loop, or the loop is left at its last value. -/
theorem State.nextInner_counts {last : Nat} {restart : BitVec 6} {after : BitVec 4} (hk : u.k.toNat ≤ last)
    (hlast : last ≤ 63) :
    (u.k.toNat < last ∧ (u.nextInner last restart after).k.toNat = u.k.toNat + 1 ∧
      (u.nextInner last restart after).phase = u.phase) ∨
    (u.k.toNat = last ∧ (u.nextInner last restart after).k = restart ∧
      (u.nextInner last restart after).phase = after) := by
  rcases u.nextInner_cases last restart after with ⟨hk', e⟩ | ⟨hk', e⟩ <;> rw [e]
  · exact .inl ⟨hk', inner_succ (by omega), rfl⟩
  · exact .inr ⟨by omega, rfl, rfl⟩

/-- The loops of LDB, WEX and RND end at 63, with `k = 0` and the phase whose code is the next one. -/
theorem State.nextInner_counts_to_63 {after : BitVec 4} (hk : u.k = s.k) (hp : u.phase = s.phase)
    (hafter : after.toNat = s.phase.toNat + 1) :
    (s.k.toNat < 63 ∧ (u.nextInner 63 0 after).k.toNat = s.k.toNat + 1 ∧ (u.nextInner 63 0 after).phase = s.phase) ∨
    (s.k.toNat = 63 ∧ (u.nextInner 63 0 after).k = 0 ∧ (u.nextInner 63 0 after).phase.toNat = s.phase.toNat + 1) := by
  rw [← hp] at hafter
  rw [← hk, ← hp]
  exact (State.nextInner_counts (Nat.le_of_lt_succ u.k.isLt) (Nat.le_refl 63)).imp_right fun ⟨hlast, hk, hp⟩ =>
    ⟨hlast, hk, by rw [hp, hafter]⟩

/-- What the core's own step does to `k`, phase by phase. -/
theorem Inv.coreStep_k (hi : Inv s) (hc : coreStep s = .next t) :
    (s.phase = 0x2 ∨ s.phase = 0x4 ∨ s.phase = 0x6 →
      (s.k.toNat < 63 ∧ t.k.toNat = s.k.toNat + 1 ∧ t.phase = s.phase) ∨
      (s.k.toNat = 63 ∧ t.k = 0 ∧ t.phase.toNat = s.phase.toNat + 1)) ∧
    (s.phase = 0x3 →
      (s.k.toNat < 15 ∧ t.k.toNat = s.k.toNat + 1 ∧ t.phase = 0x3) ∨ (s.k.toNat = 15 ∧ t.k = 16 ∧ t.phase = 0x4)) ∧
    (s.phase = 0x1 → t.k = 0 ∨ (t.k = s.k ∧ t.phase = 0xA)) ∧
    (s.phase = 0x5 ∨ s.phase = 0x7 → t.k = 0) ∧
    (s.phase = 0x0 ∨ 0x8 ≤ s.phase.toNat → t.k = s.k) := by
  rcases coreStep_cases hc with ⟨hp, ht⟩ | ⟨hp, -, rfl⟩ | ⟨hp, -, rfl⟩ | ⟨hp, rfl⟩ | ⟨hp, rfl⟩ | ⟨hp, rfl⟩ |
    ⟨hp, rfl⟩ | ⟨hp, rfl⟩ | ⟨hp, rfl⟩ | ⟨hp, rfl⟩
  · rcases s.resting_iff.1 hp with hp | hp | hp <;> simp [hp, ht]
  · simp [hp, Phase.error]
  · simp [hp]
  · refine ⟨fun _ => State.nextInner_counts_to_63 rfl rfl (by simp [hp]), ?_, ?_, ?_, ?_⟩ <;> simp [hp]
  · have hcount := State.nextInner_counts (u := s.setW s.packedWord) (restart := 16) (after := Phase.wex)
      (Nat.le_of_lt_succ (hi.wldRange hp)) (by simp)
    refine ⟨by simp [hp], fun _ => ?_, by simp [hp], by simp [hp], by simp [hp]⟩
    rwa [State.setW_phase, hp] at hcount
  · refine ⟨fun _ => State.nextInner_counts_to_63 rfl rfl (by simp [hp]), ?_, ?_, ?_, ?_⟩ <;> simp [hp]
  · simp [hp]
  · refine ⟨fun _ => State.nextInner_counts_to_63 rfl rfl (by simp [hp]), ?_, ?_, ?_, ?_⟩ <;> simp [hp]
  · simp [hp]
  · simp [hp]

/-- What the core's own step does to `j`. -/
theorem Inv.coreStep_j (hi : Inv s) (hc : coreStep s = .next t) :
    t.j = s.j ∨ (s.phase = 0x1 ∧ t.j = 0) ∨
      (s.phase = 0x7 ∧ t.j.toNat = s.j.toNat + 1 ∧ t.j.toNat ≤ s.N.toNat ∧ s.N.toNat ≤ 2 ^ 55 + 1) := by
  rcases coreStep_cases hc with ⟨-, rfl⟩ | ⟨-, -, rfl⟩ | ⟨hp, -, rfl⟩ | ⟨-, rfl⟩ | ⟨-, rfl⟩ | ⟨-, rfl⟩ | ⟨-, rfl⟩ |
    ⟨-, rfl⟩ | ⟨hp, rfl⟩ | ⟨-, rfl⟩
  case inr.inr.inl => exact .inr (.inl ⟨hp, rfl⟩)
  case inr.inr.inr.inr.inr.inr.inr.inr.inl =>
    have lo : 0x2 ≤ s.phase.toNat := by simp [hp]
    have hi7 : s.phase.toNat ≤ 0x7 := by simp [hp]
    have hlt := hi.blockInRange lo hi7
    have hN : s.N.toNat ≤ 2 ^ 55 + 1 := by
      rw [hi.countRight lo (by omega)]
      exact blockCount_le (hi.lengthAccepted lo (by omega))
    have hnext := s.nextJ_toNat (hi.j_succ_lt lo hi7)
    exact .inr (.inr ⟨hp, hnext, hnext.trans_le hlt, hN⟩)
  all_goals exact .inl (by simp)

/-- In LDB the index stays in the padded buffer, and the bit length fits its 64-bit field. -/
theorem Inv.index_bounds (hi : Inv s) (hp : s.phase = 0x2) :
    s.byteIndex ≤ 64 * s.N.toNat - 1 ∧ 64 * s.N.toNat - 1 ≤ 2 ^ 61 + 63 ∧ 8 * s.LEN.toNat ≤ 2 ^ 64 - 8 := by
  have lo : 0x2 ≤ s.phase.toNat := by simp [hp]
  have hi7 : s.phase.toNat ≤ 0x7 := by simp [hp]
  have hL := hi.lengthAccepted lo (by omega)
  have hlt := hi.blockInRange lo hi7
  have hN := hi.countRight lo (by omega)
  have hle := blockCount_le hL
  have hk := s.k.isLt
  unfold lengthLimit at hL
  unfold State.byteIndex
  omega

/-- A micro-operation code is LDB's in its own phase alone. -/
theorem decodeUop_eq_ldb {p : BitVec 4} (h : decodeUop p = .ldb) : p = 0x2 := by
  revert p
  decide

/-- A message byte is read in the phase LDB alone, below `LEN`. -/
theorem State.of_msgRe (h : s.msgRe = true) : s.phase = 0x2 ∧ s.byteIndex < s.LEN.toNat := by
  simp only [State.msgRe, Bool.and_eq_true, beq_iff_eq, decide_eq_true_eq] at h
  obtain ⟨hfetch, hidx⟩ := h
  refine ⟨?_, hidx⟩
  rcases s.fetch_cases with ⟨-, e⟩ | ⟨-, -, -, e⟩ | ⟨-, -, e⟩ <;> rw [e] at hfetch
  · cases hfetch
  · cases hfetch
  · exact decodeUop_eq_ldb hfetch

/-- Where a byte is read, `msg_addr` carries the index unwrapped. -/
theorem Inv.msgAddr_toNat (hi : Inv s) (h : s.msgRe = true) :
    s.msgAddr.toNat = s.byteIndex ∧ s.byteIndex < s.LEN.toNat := by
  obtain ⟨hp, hidx⟩ := State.of_msgRe h
  have hL := hi.lengthAccepted (by simp [hp]) (by simp [hp])
  have hfit : s.byteIndex < 2 ^ 61 := hidx.trans hL
  refine ⟨?_, hidx⟩
  have hread : (s.msgRe && decide (s.byteIndex < 2 ^ 61)) = true := by simp only [h, hfit, decide_true, Bool.and_self]
  rw [State.msgAddr, if_pos hread, BitVec.toNat_ofNat, Nat.mod_eq_of_lt hfit]

/-- Settles O39: an accepted START keeps `j` and `k`, in a resting phase, and the core's own step counts them inside their ranges. -/
theorem countersNeverWrap : Obligations.CountersNeverWrap := by
  intro s t hi hrst hstep
  have haddr : s.msgRe = true →
      s.msgAddr.toNat = 64 * s.j.toNat + s.k.toNat ∧ s.msgAddr.toNat < s.LEN.toNat := fun h => by
    obtain ⟨he, hlt⟩ := hi.msgAddr_toNat h
    exact ⟨he, he.trans_lt hlt⟩
  obtain ⟨hr, ⟨hrst', -⟩ | ⟨-, -, hrest, rfl⟩ | ⟨-, -, u, hu, rfl⟩⟩ := step_cases hstep
  · rw [hrst] at hrst'
    cases hrst'
  · refine ⟨?_, ?_, ?_, ?_, fun _ => rfl, .inl rfl, hi.index_bounds, haddr⟩ <;>
      rcases s.resting_iff.1 hrest with hp | hp | hp <;> simp [hp]
  · have hi' := hi.afterHostWrites hr
    obtain ⟨h1, h2, h3, h4, h5⟩ := hi'.coreStep_k hu
    have hj := hi'.coreStep_j hu
    exact ⟨h1, h2, h3, h4, h5, hj, hi.index_bounds, haddr⟩

end Sys2Proof.Machine

namespace Sys2Proof.Machine

/-! R19 and R20: the constants `IV` and `K` against the roots of the primes. The first sixty-four primes are written out and tied to
`Nat.Prime` by trial division, so that the kernel checks each constant by one multiplication. -/

/-- A list of the numbers below `n` that satisfy `P`, in order, has each of them at the place that `Nat.count` gives it. -/
theorem getElem?_filter_range_count {P : Nat → Prop} [DecidablePred P] {n p : Nat} (hn : p < n) (hp : P p) :
    ((List.range n).filter fun x => decide (P x))[Nat.count P p]? = some p := by
  induction n with
  | zero => omega
  | succ n ih =>
    rw [List.range_succ, List.filter_append]
    rcases Nat.lt_or_eq_of_le (Nat.le_of_lt_succ hn) with hlt | rfl
    · obtain ⟨hidx, -⟩ := List.getElem?_eq_some_iff.1 (ih hlt)
      rw [List.getElem?_append_left hidx, ih hlt]
    · have hlen : ((List.range p).filter fun x => decide (P x)).length = Nat.count P p := by
        rw [Nat.count, List.countP_eq_length_filter]
      rw [List.getElem?_append_right hlen.le, hlen]
      simp [hp]

/-- Trial division by the primes below 19. -/
def isPrimeByTrial (p : Nat) : Bool :=
  decide (2 ≤ p) && [2, 3, 5, 7, 11, 13, 17].all fun d => p == d || p % d != 0

/-- A prime below 19 is one of the trial divisors. -/
theorem mem_trialDivisors {q : Nat} (hq : q.Prime) (h : q < 19) : q ∈ [2, 3, 5, 7, 11, 13, 17] := by
  revert hq
  interval_cases q <;> simp <;> norm_num

/-- Below `19 ^ 2` trial division by the primes below 19 decides primality. -/
theorem isPrimeByTrial_iff {p : Nat} (h : p < 19 ^ 2) : isPrimeByTrial p = true ↔ p.Prime := by
  simp only [isPrimeByTrial, Bool.and_eq_true, decide_eq_true_eq, List.all_eq_true, Bool.or_eq_true, beq_iff_eq,
    bne_iff_ne, ne_eq, ← Nat.dvd_iff_mod_eq_zero]
  constructor
  · rintro ⟨h2, htrial⟩
    by_contra hnot
    have hmin : p.minFac.Prime := Nat.minFac_prime (by omega)
    have hsq : p.minFac ^ 2 ≤ p := Nat.minFac_sq_le_self (by omega) hnot
    have hlt : p.minFac < 19 := by nlinarith
    rcases htrial _ (mem_trialDivisors hmin hlt) with he | hdvd
    · exact hnot (he ▸ hmin)
    · exact hdvd p.minFac_dvd
  · intro hp
    refine ⟨hp.two_le, fun d hd => or_iff_not_imp_right.2 fun hdvd => ?_⟩
    rw [not_not] at hdvd
    have hd1 : d ≠ 1 := by
      rintro rfl
      simp at hd
    exact ((hp.eq_one_or_self_of_dvd d hdvd).resolve_left hd1).symm

/-- The first sixty-four primes. -/
def firstPrimes : List Nat :=
  [2, 3, 5, 7, 11, 13, 17, 19, 23, 29, 31, 37, 41, 43, 47, 53, 59, 61, 67, 71, 73, 79, 83, 89, 97, 101, 103, 107, 109, 113,
    127, 131, 137, 139, 149, 151, 157, 163, 167, 173, 179, 181, 191, 193, 197, 199, 211, 223, 227, 229, 233, 239, 241, 251,
    257, 263, 269, 271, 277, 281, 283, 293, 307, 311]

theorem filter_prime_range : (List.range 312).filter (fun x => decide x.Prime) = firstPrimes := by
  have htrial : ∀ x ∈ List.range 312, decide x.Prime = isPrimeByTrial x := fun x hx => by
    rw [Bool.eq_iff_iff, decide_eq_true_eq, isPrimeByTrial_iff ((List.mem_range.1 hx).trans (by norm_num))]
  rw [List.filter_congr htrial]
  decide +kernel

/-- The `t`-th prime, counted from 0, is at place `t` of the table. -/
theorem firstPrimes_count {p t : Nat} (ht : t < 64) (hp : p.Prime) (hc : t = Nat.count Nat.Prime p) :
    firstPrimes[t]? = some p := by
  have hlt : p < 312 := by
    by_contra hge
    have hmono : Nat.count Nat.Prime 312 ≤ Nat.count Nat.Prime p := Nat.count_monotone _ (by omega)
    have h64 : Nat.count Nat.Prime 312 = 64 := by
      rw [Nat.count, List.countP_eq_length_filter, filter_prime_range]
      rfl
    omega
  rw [hc, ← filter_prime_range]
  exact getElem?_filter_range_count hlt hp

/-- The word `c` is the first 32 bits of the fractional part of the `e`-th root of `p`. -/
def IsRootFraction (e p : Nat) (c : Word) : Prop :=
  ∃ r : Nat, r ^ e ≤ p * 2 ^ (32 * e) ∧ p * 2 ^ (32 * e) < (r + 1) ^ e ∧ c = BitVec.ofNat 32 r

/-- The integer part of the `e`-th root, for the roots that are asked for, which are below 7. -/
def rootFloor (e p : Nat) : Nat := Nat.findGreatest (fun q => q ^ e ≤ p) 6

/-- The root of `p * 2 ^ (32 * e)` that has the word `c` below the integer part of the root of `p`. -/
def rootWith (e p : Nat) (c : Word) : Nat := 2 ^ 32 * rootFloor e p + c.toNat

theorem isRootFraction_of_rootWith {e p : Nat} {c : Word}
    (h : rootWith e p c ^ e ≤ p * 2 ^ (32 * e) ∧ p * 2 ^ (32 * e) < (rootWith e p c + 1) ^ e) : IsRootFraction e p c := by
  refine ⟨rootWith e p c, h.1, h.2, BitVec.eq_of_toNat_eq ?_⟩
  rw [BitVec.toNat_ofNat, rootWith, Nat.mul_add_mod, Nat.mod_eq_of_lt c.isLt]

/-- Each word of `IV` against the prime at its place. -/
theorem iv_rootWith : ∀ i : Fin 8, ∀ p ∈ firstPrimes[i.val]?,
    rootWith 2 p Rom.IV[i] ^ 2 ≤ p * 2 ^ (32 * 2) ∧ p * 2 ^ (32 * 2) < (rootWith 2 p Rom.IV[i] + 1) ^ 2 := by
  decide +kernel

/-- Each word of `K` against the prime at its place. -/
theorem roundConstant_rootWith : ∀ t < 64, ∀ p ∈ firstPrimes[t]?,
    rootWith 3 p (Rom.roundConstant t) ^ 3 ≤ p * 2 ^ (32 * 3) ∧
      p * 2 ^ (32 * 3) < (rootWith 3 p (Rom.roundConstant t) + 1) ^ 3 := by
  decide +kernel

/-- Settles O47: each constant completes the integer part of the root of the prime at its place. -/
theorem constantsAreRootsOfPrimes : Obligations.ConstantsAreRootsOfPrimes := by
  refine ⟨fun p i hi hp hc => ?_, fun p t ht hp hc => ?_⟩
  · exact isRootFraction_of_rootWith (iv_rootWith ⟨i, hi⟩ p (firstPrimes_count (by omega) hp hc))
  · exact isRootFraction_of_rootWith (roundConstant_rootWith t ht p (firstPrimes_count ht hp hc))

/-! The state after reset. -/

/-- Settles O35: in IDLE the invariants ask for the canonical memory alone. -/
theorem invariantsHoldAtReset : Obligations.InvariantsHoldAtReset :=
  ⟨Inv.of_unstarted Memory.reset_wf (Nat.zero_le 1), Sound.of_unbound (.inl rfl)⟩

/-- Settles O55: the flags are functions of the phase, and no byte is read outside LDB. -/
theorem resetStateIsIdle : Obligations.ResetStateIsIdle := by
  refine ⟨rfl, rfl, rfl, rfl, ?_⟩
  decide

end Sys2Proof.Machine

namespace Sys2Proof.Machine

/-! R46: a run reads the message bytes in order, each once. In each state of a run the bytes below `nextRead` are read and the
others are not, so what is left to read is the range from there to the length. -/

variable {s t u : State} {msg : Nat → Byte} {L n : Nat}

theorem State.msgRe_iff (s : State) : s.msgRe = true ↔ s.fetch = .ldb ∧ s.byteIndex < s.LEN.toNat := by
  simp [State.msgRe]

/-- In an accepted length the index of a read fits `msg_addr`. -/
theorem State.msgAddr_toNat (h : s.msgRe = true) (hL : s.LEN.toNat < 2 ^ 61) : s.msgAddr.toNat = s.byteIndex := by
  have hidx : s.byteIndex < 2 ^ 61 := ((s.msgRe_iff.1 h).2).trans hL
  rw [State.msgAddr, if_pos (by rw [h, decide_eq_true hidx, Bool.and_self]), BitVec.toNat_ofNat,
    Nat.mod_eq_of_lt hidx]

theorem State.msgRdata_eq (h : s.msgRe = true) : s.msgRdata = s.MSG.read s.byteIndex := if_pos h

/-- Outside LDB no byte is read. -/
theorem State.msgRe_eq_false (hp : s.phase ≠ 0x2) : s.msgRe = false := by
  rw [Bool.eq_false_iff]
  exact fun h => hp (State.of_msgRe h).1

/-- Without RESET, a byte is read in LDB exactly when the index is below `LEN`. -/
theorem State.msgRe_ldb (hrst : s.move.rst = false) (hp : s.phase = 0x2) :
    s.msgRe = true ↔ s.byteIndex < s.LEN.toNat := by
  have hfetch : s.fetch = .ldb := by
    rw [State.fetch_uop hrst (State.resting_of_busy (by simp [State.busy_eq, hp])), hp]
    rfl
  simp [State.msgRe_iff, hfetch]

/-- In a busy phase a step without RESET is the core's own. -/
theorem coreStep_of_step (hb : s.busy = true) (hrst : s.move.rst = false) (h : step s = .next t) :
    ∃ u, coreStep s.afterHostWrites = .next u ∧ t = u.advance := by
  obtain ⟨-, ⟨hrst', -⟩ | ⟨-, -, hrest, -⟩ | ⟨-, -, hu⟩⟩ := step_cases h
  · rw [hrst] at hrst'
    cases hrst'
  · rw [State.resting_of_busy hb] at hrest
    cases hrest
  · exact hu

/-- The index in the padded buffer up to which the LDB steps of a run have come, in each phase from INIT to SER. -/
def State.nextRead (s : State) : Nat :=
  if s.phase = 0x1 then 0
  else if s.phase = 0x2 then s.byteIndex
  else if s.phase = 0x8 then 64 * s.j.toNat
  else 64 * (s.j.toNat + 1)

theorem State.nextRead_init (hp : s.phase = 0x1) : s.nextRead = 0 := if_pos hp

theorem State.nextRead_ldb (hp : s.phase = 0x2) : s.nextRead = 64 * s.j.toNat + s.k.toNat := by
  simp [State.nextRead, State.byteIndex, hp]

theorem State.nextRead_ser (hp : s.phase = 0x8) : s.nextRead = 64 * s.j.toNat := by
  simp [State.nextRead, hp]

/-- Once its block is loaded, and until the next one. -/
theorem State.nextRead_loaded (lo : 0x3 ≤ s.phase.toNat) (hi : s.phase.toNat ≤ 0x7) :
    s.nextRead = 64 * (s.j.toNat + 1) := by
  have h1 : s.phase ≠ 0x1 := fun h => by simp [h] at lo
  have h2 : s.phase ≠ 0x2 := fun h => by simp [h] at lo
  have h8 : s.phase ≠ 0x8 := fun h => by simp [h] at hi
  rw [State.nextRead, if_neg h1, if_neg h2, if_neg h8]

/-- A step between two places of a block that is loaded reads nothing further. -/
theorem State.nextRead_sameBlock (hj : t.j = s.j) (hs : 0x3 ≤ s.phase.toNat ∧ s.phase.toNat ≤ 0x7)
    (ht : 0x3 ≤ t.phase.toNat ∧ t.phase.toNat ≤ 0x7) : t.nextRead = s.nextRead := by
  rw [State.nextRead_loaded hs.1 hs.2, State.nextRead_loaded ht.1 ht.2, hj]

/-- LDB goes on by one byte, whether it counts up or leaves its loop. -/
theorem State.ldb_nextRead (hp : u.phase = 0x2) : (u.nextInner 63 0 Phase.wld).nextRead = u.nextRead + 1 := by
  have hk := u.k.isLt
  rw [State.nextRead_ldb hp]
  rcases u.nextInner_cases 63 0 Phase.wld with ⟨hk', e⟩ | ⟨hk', e⟩ <;> rw [e]
  · have hcount : State.nextRead { u with k := u.k + 1 } = 64 * u.j.toNat + (u.k + 1).toNat := State.nextRead_ldb hp
    rw [hcount, inner_succ hk']
    rfl
  · rw [State.nextRead_loaded (by simp) (by simp)]
    show 64 * (u.j.toNat + 1) = _
    omega

/-- The loops of WLD, WEX and RND read nothing. -/
theorem State.nextInner_nextRead {last : Nat} {restart : BitVec 6} {after : BitVec 4}
    (hs : 0x3 ≤ u.phase.toNat ∧ u.phase.toNat ≤ 0x7) (hafter : 0x3 ≤ after.toNat ∧ after.toNat ≤ 0x7) :
    (u.nextInner last restart after).nextRead = u.nextRead := by
  rcases u.nextInner_cases last restart after with ⟨-, e⟩ | ⟨-, e⟩ <;> rw [e]
  · exact State.nextRead_sameBlock rfl hs hs
  · exact State.nextRead_sameBlock rfl hs hafter

/-- FLD goes to the first byte of the next block, or to the end of the last. -/
theorem Inv.fld_nextRead (hi : Inv s) (hp : s.phase = 0x7) (x : Vector Word 8) :
    State.nextRead { s with
      H := x, j := s.nextJ, k := 0
      phase := if s.j.toNat + 1 < s.N.toNat then Phase.ldb else Phase.ser } = s.nextRead := by
  have hnext := s.nextJ_toNat (hi.j_succ_lt (by simp [hp]) (by simp [hp]))
  rw [State.nextRead_loaded (s := s) (by simp [hp]) (by simp [hp]), ← hnext]
  split
  · exact State.nextRead_ldb rfl
  · exact State.nextRead_ser rfl

/-- In a run on an accepted length, each LDB step goes on by one byte, and before SER no other step moves the place. -/
theorem Inv.coreStep_nextRead (hi : Inv s) (hb : s.busy = true) (hser : s.phase ≠ 0x8)
    (hL : s.LEN.toNat < lengthLimit) (hc : coreStep s = .next t) :
    t.nextRead = if s.phase = 0x2 then s.nextRead + 1 else s.nextRead := by
  rcases coreStep_cases hc with ⟨hp, rfl⟩ | ⟨hp, hL', rfl⟩ | ⟨hp, -, rfl⟩ | ⟨hp, rfl⟩ | ⟨hp, rfl⟩ | ⟨hp, rfl⟩ |
    ⟨hp, rfl⟩ | ⟨hp, rfl⟩ | ⟨hp, rfl⟩ | ⟨hp, rfl⟩
  · rw [State.resting_of_busy hb] at hp
    cases hp
  · omega
  · rw [if_neg (by simp [hp]), State.nextRead_init hp, State.nextRead_ldb rfl]
    rfl
  · rw [if_pos hp]
    exact State.ldb_nextRead hp
  · rw [if_neg (by simp [hp])]
    exact State.nextInner_nextRead (by simp [hp]) (by simp)
  · rw [if_neg (by simp [hp])]
    exact State.nextInner_nextRead (by simp [hp]) (by simp)
  · rw [if_neg (by simp [hp])]
    exact State.nextRead_sameBlock rfl (by simp [hp]) (by simp)
  · rw [if_neg (by simp [hp])]
    exact State.nextInner_nextRead (by simp [hp]) (by simp)
  · rw [if_neg (show s.phase ≠ 0x2 by simp [hp])]
    exact hi.fld_nextRead hp _
  · exact absurd hp hser

/-- The addresses from `i` on that a run on `L` bytes reads. -/
def addressesFrom (L i : Nat) : List Nat := List.range' i (L - i)

theorem addressesFrom_zero (L : Nat) : addressesFrom L 0 = List.range L := by
  rw [addressesFrom, Nat.sub_zero, List.range_eq_range']

theorem addressesFrom_of_le {i : Nat} (h : L ≤ i) : addressesFrom L i = [] := by
  rw [addressesFrom, Nat.sub_eq_zero_of_le h]
  rfl

theorem addressesFrom_of_lt {i : Nat} (h : i < L) : addressesFrom L i = i :: addressesFrom L (i + 1) := by
  rw [addressesFrom, show L - i = L - (i + 1) + 1 by omega]
  rfl

/-- The address read in the next step alone, if there is one. -/
def State.readNow (s : State) : List Nat := if s.msgRe then [s.msgAddr.toNat] else []

theorem State.readNow_of_not_ldb (hp : s.phase ≠ 0x2) : s.readNow = [] := by
  simp [State.readNow, State.msgRe_eq_false hp]

theorem readAddresses_succ (h : step s = .next t) : readAddresses (n + 1) s = s.readNow ++ readAddresses n t := by
  rw [readAddresses, h]
  rfl

/-- In a run, the next step reads the first of the addresses left, if it is an LDB step, and leaves the others. -/
theorem State.Running.readNow_append (h : s.Running msg L) (hm : s.move.keepsDuty L) (hser : s.phase ≠ 0x8)
    (hstep : Machine.step s = .next t) : s.readNow ++ addressesFrom L t.nextRead = addressesFrom L s.nextRead := by
  have hduty : s.move.keepsDuty s.LEN.toNat := by rw [h.len]; exact hm
  have hL : s.LEN.toNat < lengthLimit := by rw [h.len]; exact h.accepted
  obtain ⟨u, hu, rfl⟩ := coreStep_of_step h.busy hm.1 hstep
  have hi := h.inv.afterHostWrites (State.hostRefusal_of_keepsDuty hduty)
  have hnext : u.advance.nextRead = if s.phase = 0x2 then s.nextRead + 1 else s.nextRead :=
    hi.coreStep_nextRead (t := u) h.busy hser hL hu
  by_cases hp : s.phase = 0x2
  · have hidx : s.nextRead = s.byteIndex := State.nextRead_ldb hp
    have hread := State.msgRe_ldb hm.1 hp
    rw [hnext, if_pos hp, hidx]
    rw [h.len] at hread
    by_cases hlt : s.byteIndex < L
    · rw [addressesFrom_of_lt hlt, State.readNow, if_pos (hread.2 hlt), State.msgAddr_toNat (hread.2 hlt) hL]
      rfl
    · rw [addressesFrom_of_le (Nat.le_of_not_lt hlt), addressesFrom_of_le (by omega), State.readNow,
        if_neg (mt hread.1 hlt)]
      rfl
  · rw [hnext, if_neg hp, State.readNow_of_not_ldb hp]
    rfl

/-- In SER every message byte is read, and the last step reads none. -/
theorem State.Running.readAddresses_ser (h : s.Running msg L) (hm : s.move.keepsDuty L) (hser : s.phase = 0x8) :
    readAddresses 1 s = addressesFrom L s.nextRead := by
  obtain ⟨t, hst, -⟩ := h.step_ser hm hser
  have hj : s.j.toNat = blockCount L := by
    rw [h.inv.blocksDone (by simp [hser]) (by simp [hser]), h.inv.countRight (by simp [hser]) (by simp [hser]), h.len]
  have hpast : L ≤ s.nextRead := by
    rw [State.nextRead_ser hser, hj, blockCount]
    omega
  rw [readAddresses_succ hst, State.readNow_of_not_ldb (by simp [hser]), addressesFrom_of_le hpast]
  rfl

/-- From any state of a run to DONE, the addresses read are those left, in order. -/
theorem State.Running.readAddresses_eq (h : s.Running msg L) (hn : s.stepsToSer = n)
    (hm : ∀ m ∈ s.host.take (n + 1), m.keepsDuty L) : readAddresses (n + 1) s = addressesFrom L s.nextRead := by
  have hmove := State.move_keepsDuty hm
  induction n generalizing s with
  | zero =>
    by_cases hser : s.phase = 0x8
    · exact h.readAddresses_ser hmove hser
    · obtain ⟨t, -, -, hleft, -⟩ := h.step hmove hser
      omega
  | succ n ih =>
    have hser : s.phase ≠ 0x8 := fun hser => by
      rw [State.stepsToSer_ser hser] at hn
      omega
    obtain ⟨t, hst, ht, hleft, hhost⟩ := h.step hmove hser
    have hm' : ∀ m ∈ t.host.take (n + 1), m.keepsDuty L := fun m hmt => hm m <| List.mem_of_mem_tail <| by
      rwa [List.tail_take_eq_take_tail, ← hhost]
    rw [readAddresses_succ hst, ih ht (by omega) hm' (State.move_keepsDuty hm'), h.readNow_append hmove hser hst]

/-- An accepted START goes to INIT. -/
theorem State.Starts.phase_of_step (h : s.Starts L) (hstep : step s = .next t) : t.phase = 0x1 := by
  obtain ⟨-, ⟨hrst, -⟩ | ⟨-, -, -, rfl⟩ | ⟨-, hno, -⟩⟩ := step_cases hstep
  · rw [h.noReset] at hrst
    cases hrst
  · rfl
  · exact absurd ⟨h.start, h.resting⟩ hno

/-- An accepted START reads nothing, and the run it begins reads the whole message. -/
theorem State.Starts.readAddresses_eq (h : s.Starts L) (hm : s.MSG.wf = true) (hL : L < lengthLimit)
    (hd : s.DutyKept L (194 * blockCount L + 2)) : readAddresses (194 * blockCount L + 3) s = List.range L := by
  have hp : s.phase ≠ 0x2 := fun hp => by
    rcases s.resting_iff.1 h.resting with hp' | hp' | hp' <;> simp [hp'] at hp
  obtain ⟨t, hst, ht, hleft, hhost⟩ := h.running hm hL
  have hfrom := ht.readAddresses_eq hleft (by rw [hhost]; exact hd)
  have hzero : t.nextRead = 0 := State.nextRead_init (h.phase_of_step hst)
  rw [readAddresses_succ hst, State.readNow_of_not_ldb hp, hfrom, hzero, addressesFrom_zero]
  rfl

/-- Settles O33: the port by its definition, and the addresses by induction on the steps that are left until SER. -/
theorem messageReadInOrderOnce : Obligations.MessageReadInOrderOnce :=
  ⟨fun s => ⟨s.msgRe_iff, fun h hL => ⟨State.msgAddr_toNat h hL, State.msgRdata_eq h⟩⟩,
    fun _ _ hm h hL hd => h.readAddresses_eq hm hL hd⟩

end Sys2Proof.Machine

namespace Sys2Proof.Machine

/-! R41 and R47: the message memory belongs to the host. -/

variable {s t : State} {i : Instr}

/-- Every code of the phase register is a micro-operation's. -/
theorem format_decodeUop (p : BitVec 4) : (decodeUop p).format = .uop := by
  revert p
  decide

/-- A micro-operation leaves the message memory, the host's moves and the counter of the free values alone. -/
theorem exec_uop_frame (hi : i.format = .uop) (h : exec i s = .next t) :
    t.MSG = s.MSG ∧ t.host = s.host ∧ t.draw = s.draw := by
  cases i
  case reset | start | nocmd => cases hi
  case reservedB | reservedC | reservedD | reservedE | reservedF => cases h
  case init =>
    replace h : execInit s = .next t := h
    unfold execInit at h
    split at h <;> cases h <;> simp
  all_goals
    cases h
    simp

/-- So does every instruction: RESET and an accepted START write registers alone, and any other host command is the
micro-operation of the phase. -/
theorem exec_frame (h : exec i s = .next t) : t.MSG = s.MSG ∧ t.host = s.host ∧ t.draw = s.draw := by
  have hcore : coreStep s = .next t → t.MSG = s.MSG ∧ t.host = s.host ∧ t.draw = s.draw := fun hc =>
    exec_uop_frame (format_decodeUop s.phase) (coreStep_eq_exec s ▸ hc)
  cases i
  case reset =>
    cases h
    simp
  case start len =>
    replace h : execStart len s = .next t := h
    unfold execStart at h
    split at h
    · cases h
      simp
    · exact hcore h
  case nocmd => exact hcore h
  all_goals exact exec_uop_frame rfl h

/-- Settles O23: the core has no store. -/
theorem noInstructionWritesMessage : Obligations.NoInstructionWritesMessage := by
  intro i s t h
  obtain ⟨hMSG, hhost, hdraw⟩ := exec_frame h
  exact ⟨fun a => by rw [hMSG], hhost, hdraw⟩

/-! The canonical form of the message memory. -/

theorem Memory.wfFrom_cons {a lo : Nat} {b : Byte} {rest : Memory} :
    Memory.wfFrom ((a, b) :: rest) lo = true ↔
      lo ≤ a ∧ a < Memory.size ∧ b ≠ Memory.unlisted ∧ Memory.wfFrom rest (a + 1) = true := by
  simp [Memory.wfFrom, and_assoc]

/-- The first address of a canonical memory is the least at which a byte is listed. -/
theorem Memory.head_le {a a' lo : Nat} {b : Byte} {rest : Memory} (h : Memory.wfFrom ((a, b) :: rest) lo = true)
    (ha' : Memory.read ((a, b) :: rest) a' ≠ Memory.unlisted) : a ≤ a' := by
  obtain ⟨-, hsize, hb, hrest⟩ := Memory.wfFrom_cons.1 h
  by_contra hlt
  exact ha' (Memory.read_below (Memory.wfFrom_cons.2 ⟨Nat.le_refl a, hsize, hb, hrest⟩) (Nat.lt_of_not_le hlt))

/-- What follows the first entry is read alike, if the whole is. -/
theorem Memory.read_tail_eq {a : Nat} {b b' : Byte} {rest rest' : Memory} (h : Memory.wfFrom rest (a + 1) = true)
    (h' : Memory.wfFrom rest' (a + 1) = true)
    (hread : ∀ x, Memory.read ((a, b) :: rest) x = Memory.read ((a, b') :: rest') x) (x : Nat) :
    Memory.read rest x = Memory.read rest' x := by
  by_cases hx : x < a + 1
  · rw [Memory.read_below h hx, Memory.read_below h' hx]
  · have hne : x ≠ a := by omega
    simpa [Memory.read_cons, hne] using hread x

/-- Canonical memories that read alike are equal, whatever address each is canonical from. -/
theorem Memory.eq_of_read_eq {m m' : Memory} {lo lo' : Nat} (h : Memory.wfFrom m lo = true)
    (h' : Memory.wfFrom m' lo' = true) (hread : ∀ x, m.read x = m'.read x) : m = m' := by
  induction m generalizing m' lo lo' with
  | nil =>
    cases m' with
    | nil => rfl
    | cons c' rest' =>
      obtain ⟨-, -, hb', -⟩ := Memory.wfFrom_cons.1 h'
      exact absurd ((Memory.read_head _ _ rest').symm.trans (hread c'.1).symm) hb'
  | cons c rest ih =>
    obtain ⟨a, b⟩ := c
    obtain ⟨-, -, hb, hrest⟩ := Memory.wfFrom_cons.1 h
    have ha := Memory.read_head a b rest
    cases m' with
    | nil => exact absurd (ha.symm.trans (hread a)) hb
    | cons c' rest' =>
      obtain ⟨a', b'⟩ := c'
      obtain ⟨-, -, hb', hrest'⟩ := Memory.wfFrom_cons.1 h'
      have ha' := Memory.read_head a' b' rest'
      obtain rfl : a = a' := Nat.le_antisymm
        (Memory.head_le h (by rw [hread, ha']; exact hb')) (Memory.head_le h' (by rw [← hread, ha]; exact hb))
      obtain rfl : b = b' := by rw [← ha, ← ha', hread]
      rw [ih hrest hrest' (Memory.read_tail_eq hrest hrest' hread)]

/-- Settles O41: by induction on the list; two that read alike agree in their first address, its byte and the rest. -/
theorem canonicalMemoryIsUnique : Obligations.CanonicalMemoryIsUnique :=
  fun _ _ h h' hread => Memory.eq_of_read_eq h h' hread

end Sys2Proof.Machine

namespace Sys2Proof

/-! R62 to R65, R69: the decoder and the encoder, format by format, and that each is the other's inverse. -/

variable {i : Instr} {w nbits : Nat} {len len' : BitVec 64}

/-! What a word of each format decodes to. -/

theorem ite_ok_eq_ok {ε α : Type} {p : Prop} [Decidable p] {e : ε} {a b : α} :
    (if p then Except.ok a else Except.error e) = Except.ok b ↔ p ∧ a = b := by
  by_cases h : p <;> simp [h]

theorem decodeWord_hostcmd_eq_ok :
    decodeWord .hostcmd w = .ok i ↔
      w < 2 ^ 66 ∧ decodeHostcmd (w / 2 % 2 == 1) (w % 2 == 1) (BitVec.ofNat 64 (w / 4)) = i :=
  ite_ok_eq_ok

theorem decodeWord_uop_eq_ok : decodeWord .uop w = .ok i ↔ w < 2 ^ 4 ∧ decodeUop (BitVec.ofNat 4 w) = i :=
  ite_ok_eq_ok

theorem decodeTableWord_eq_some : decodeTableWord nbits w = some i ↔ decodeWord (tableFormat nbits) w = .ok i := by
  unfold decodeTableWord
  cases decodeWord (tableFormat nbits) w <;> simp

/-! The encoder after the decoder of each format. -/

theorem encode_decodeUop : ∀ code : BitVec 4, encode (decodeUop code) = code.toNat := by decide

theorem format_decodeHostcmd (rst start : Bool) (len : BitVec 64) : (decodeHostcmd rst start len).format = .hostcmd := by
  cases rst <;> cases start <;> rfl

/-- The two low bits of a host command's word are the pins `{rst, start}` (R62, R63). -/
theorem encode_decodeHostcmd_pattern (rst start : Bool) (len : BitVec 64) :
    encode (decodeHostcmd rst start len) % 4 = 2 * rst.toNat + start.toNat := by
  match rst, start with
  | true, true => rfl
  | true, false => rfl
  | false, true =>
    show (1 + 4 * len.toNat) % 4 = 1
    omega
  | false, false => rfl

/-- The operand of a START is what the port `len` carries (R62). -/
theorem decodeHostcmd_eq_start {rst start : Bool} (h : decodeHostcmd rst start len = .start len') : len' = len := by
  cases rst <;> cases start <;> cases h
  rfl

/-- A bit taken from a number, as a number again. -/
theorem toNat_mod_two_beq_one (n : Nat) : (n % 2 == 1).toNat = n % 2 := by
  rcases Nat.mod_two_eq_zero_or_one n with h | h <;> simp [h]

/-! The decoder after the encoder. -/

/-- No word of the encoder has a bit above its format's own. -/
theorem encode_lt (i : Instr) : encode i < 2 ^ i.format.bits := by
  cases i
  case reset start => exact Laws.EncodeFits.reset start
  case start len => exact Laws.EncodeFits.start len
  all_goals decide

theorem decodeUop_encode (hi : i.format = .uop) : decodeUop (BitVec.ofNat 4 (encode i)) = i := by
  cases i
  case reset | start | nocmd => cases hi
  all_goals rfl

theorem decodeHostcmd_encode (hi : i.format = .hostcmd) :
    decodeHostcmd (encode i / 2 % 2 == 1) (encode i % 2 == 1) (BitVec.ofNat 64 (encode i / 4)) = i := by
  cases i
  case reset start => cases start <;> rfl
  case start len =>
    have hrst : encode (.start len) / 2 % 2 = 0 := by
      show (1 + 4 * len.toNat) / 2 % 2 = 0
      omega
    have hstart : encode (.start len) % 2 = 1 := by
      show (1 + 4 * len.toNat) % 2 = 1
      omega
    have hlen : encode (.start len) / 4 = len.toNat := by
      show (1 + 4 * len.toNat) / 4 = len.toNat
      omega
    rw [hrst, hstart, hlen, BitVec.ofNat_toNat, BitVec.setWidth_eq]
    rfl
  case nocmd => rfl
  all_goals cases hi

/-- Settles O1: the word fits its format, and each format's decoder undoes the encoder. -/
theorem decodeInvertsEncode : Obligations.DecodeInvertsEncode := by
  intro i
  have hlt := encode_lt i
  cases hi : i.format with
  | hostcmd =>
    rw [hi] at hlt
    exact decodeWord_hostcmd_eq_ok.2 ⟨hlt, decodeHostcmd_encode hi⟩
  | uop =>
    rw [hi] at hlt
    exact decodeWord_uop_eq_ok.2 ⟨hlt, decodeUop_encode hi⟩

/-- Settles O2: each format's decoder followed by the encoder gives the bits of the word that the instruction keeps. -/
theorem decodedWordsReencode : Obligations.DecodedWordsReencode := by
  intro f w i h
  cases f with
  | hostcmd =>
    obtain ⟨hlt, rfl⟩ := decodeWord_hostcmd_eq_ok.1 h
    refine ⟨format_decodeHostcmd _ _ _, nofun, fun _ => ⟨?_, fun len hlen => ?_⟩⟩
    · rw [encode_decodeHostcmd_pattern, toNat_mod_two_beq_one, toNat_mod_two_beq_one]
      omega
    · have hfit : w / 4 < 2 ^ 64 := by omega
      rw [decodeHostcmd_eq_start hlen, BitVec.toNat_ofNat, Nat.mod_eq_of_lt hfit]
  | uop =>
    obtain ⟨hlt, rfl⟩ := decodeWord_uop_eq_ok.1 h
    refine ⟨Machine.format_decodeUop _, fun _ => ?_, nofun⟩
    rw [encode_decodeUop, BitVec.toNat_ofNat, Nat.mod_eq_of_lt hlt]

/-- The encoder's words of instructions of one format, read with a number of bits that names the format, give them back. -/
theorem map_decodeTableWord_encode {is : List Instr} (h : ∀ i ∈ is, i.format = tableFormat nbits) :
    is.map (fun i => decodeTableWord nbits (encode i)) = is.map some :=
  List.map_congr_left fun i hi => decodeTableWord_eq_some.2 (h i hi ▸ decodeInvertsEncode i)

/-- Settles O3: the words of the table are the encoder's. -/
theorem tableWordsDecode : Obligations.TableWordsDecode :=
  ⟨map_decodeTableWord_encode (is := [.reset false, .reset true, .start 0, .nocmd]) (by decide),
    map_decodeTableWord_encode (is := [.idle, .init, .ldb, .wld]) (by decide),
    map_decodeTableWord_encode (is := [.wex, .rin, .rnd, .fld]) (by decide),
    map_decodeTableWord_encode (is := [.ser, .done, .error]) (by decide)⟩

end Sys2Proof

namespace Sys2Proof.Machine

/-! R61, R63, R135, R136: the host command on the pins and the instruction the step selects have one outcome. -/

variable {s t : State} {nbits w : Nat}

/-- The step of a host that is not refused is the outcome of the selected instruction. -/
theorem step_eq_runOf_fetch (h : s.hostRefusal = none) : step s = s.runOf s.fetch := by
  cases hu : exec s.fetch s.afterHostWrites <;> simp [step, State.runOf, h, hu]

theorem State.command_reset (h : s.move.rst = true) : s.command = .reset s.move.start := by
  unfold State.command
  rw [h]
  rfl

theorem State.command_start (h : s.move.rst = false) (hs : s.move.start = true) : s.command = .start s.move.len := by
  unfold State.command
  rw [h, hs]
  rfl

theorem State.command_nocmd (h : s.move.rst = false) (hs : s.move.start = false) : s.command = .nocmd := by
  unfold State.command
  rw [h, hs]
  rfl

theorem exec_nocmd (s : State) : exec .nocmd s = coreStep s := rfl

/-- A START outside a resting phase is ignored (R135). -/
theorem exec_start_ignored (len : BitVec 64) (h : ¬ s.resting = true) : exec (.start len) s = coreStep s := if_neg h

/-- The command on the pins does what the selected instruction does, in every phase. -/
theorem exec_command (s : State) : exec s.command s = exec s.fetch s := by
  rcases s.fetch_cases with ⟨hrst, hfetch⟩ | ⟨hrst, hstart, -, hfetch⟩ | ⟨hrst, hno, hfetch⟩ <;> rw [hfetch]
  · rw [State.command_reset hrst]
  · rw [State.command_start hrst hstart]
  · rw [← coreStep_eq_exec]
    cases hstart : s.move.start with
    | false => rw [State.command_nocmd hrst hstart, exec_nocmd]
    | true => rw [State.command_start hrst hstart, exec_start_ignored _ fun hrest => hno ⟨hstart, hrest⟩]

/-- Settles O6: the host's writes change neither the pins nor the selection. -/
theorem stepIsOutcomeOfPins : Obligations.StepIsOutcomeOfPins := by
  intro s h
  have hexec : exec s.command s.afterHostWrites = exec s.fetch s.afterHostWrites := exec_command s.afterHostWrites
  rw [step_eq_runOf_fetch h, State.runOf, State.runOf, hexec]

/-! A placed word: the host makes no write beside it, and it is what the pins or the phase then say. -/

theorem State.withFetchWord_hostcmd (s : State) (h : tableFormat nbits = .hostcmd) :
    s.withFetchWord nbits w = s.placeCommand w := by
  unfold State.withFetchWord State.placeWord
  rw [h]

theorem State.withFetchWord_uop (s : State) (h : tableFormat nbits = .uop) :
    s.withFetchWord nbits w = s.placeUop w := by
  unfold State.withFetchWord State.placeWord
  rw [h]

@[simp] theorem State.placeCommand_hostRefusal (s : State) (w : Nat) : (s.placeCommand w).hostRefusal = none := rfl

@[simp] theorem State.placeUop_hostRefusal (s : State) (w : Nat) : (s.placeUop w).hostRefusal = none := rfl

theorem State.placeCommand_command (s : State) (w : Nat) :
    (s.placeCommand w).command = decodeHostcmd (w / 2 % 2 == 1) (w % 2 == 1) (BitVec.ofNat 64 (w / 4)) := rfl

theorem State.placeUop_fetch (s : State) (w : Nat) : (s.placeUop w).fetch = decodeUop (BitVec.ofNat 4 w) :=
  State.fetch_uop_of_no_start rfl rfl

/-- Settles O7: a placed host command is the command on the pins, a placed micro-operation the selected instruction. -/
theorem placedWordRunsNext : Obligations.PlacedWordRunsNext := by
  intro s nbits w i h
  rw [decodeTableWord_eq_some] at h
  cases hf : tableFormat nbits with
  | hostcmd =>
    rw [hf] at h
    obtain ⟨-, rfl⟩ := decodeWord_hostcmd_eq_ok.1 h
    rw [s.withFetchWord_hostcmd hf, stepIsOutcomeOfPins _ (s.placeCommand_hostRefusal w), s.placeCommand_command]
  | uop =>
    rw [hf] at h
    obtain ⟨-, rfl⟩ := decodeWord_uop_eq_ok.1 h
    rw [s.withFetchWord_uop hf, step_eq_runOf_fetch (s.placeUop_hostRefusal w), s.placeUop_fetch]

/-! R69: the reserved phase codes. -/

theorem reserved_phase_cases : ∀ p : BitVec 4, 0xB ≤ p.toNat → p = 0xB ∨ p = 0xC ∨ p = 0xD ∨ p = 0xE ∨ p = 0xF := by
  decide

/-- The micro-operation of a reserved code is the stuck fault with that code. -/
theorem exec_decodeUop_reserved {p : BitVec 4} (h : 0xB ≤ p.toNat) (s : State) :
    exec (decodeUop p) s = .fault (.stuckReservedPhase p) := by
  rcases reserved_phase_cases p h with rfl | rfl | rfl | rfl | rfl <;> rfl

/-- A reserved phase is no resting one, so `start` is not accepted there (R134). -/
theorem State.resting_of_reserved (h : 0xB ≤ s.phase.toNat) : s.resting = false := by
  rw [← Bool.not_eq_true, State.resting_iff]
  rintro (hp | hp | hp) <;> simp [hp] at h

theorem step_of_reserved (h : 0xB ≤ s.phase.toNat) (hrst : s.move.rst = false) (hr : s.hostRefusal = none) :
    step s = .fault (.stuckReservedPhase s.phase) := by
  rw [step_eq_runOf_fetch hr, State.fetch_uop hrst (State.resting_of_reserved h), State.runOf, exec_decodeUop_reserved h]

/-- From a legal phase the core's own step goes to a legal one. -/
theorem coreStep_phase_le (hp : s.phase.toNat ≤ 0xA) (h : coreStep s = .next t) : t.phase.toNat ≤ 0xA := by
  rcases coreStep_phase h with ⟨-, hp'⟩ | ⟨-, hp', -⟩ | ⟨-, hp'⟩ | ⟨-, hp' | hp'⟩ | ⟨-, hp' | hp'⟩ |
    ⟨-, hp' | hp'⟩ | ⟨-, hp'⟩ | ⟨-, hp' | hp'⟩ | ⟨-, hp' | hp'⟩ | ⟨-, hp'⟩ <;> rw [hp']
  case inl => exact hp
  all_goals decide

theorem step_phase_le (hp : s.phase.toNat ≤ 0xA) (h : step s = .next t) : t.phase.toNat ≤ 0xA := by
  obtain ⟨-, ⟨-, rfl⟩ | ⟨-, -, -, rfl⟩ | ⟨-, -, u, hu, rfl⟩⟩ := step_cases h
  · simp
  · simp
  · exact coreStep_phase_le (s := s.afterHostWrites) (t := u) hp hu

/-- Settles O4: RESET goes to IDLE and START to INIT, and the core's own step keeps to the eleven phases. -/
theorem reservedCodesAreStuck : Obligations.ReservedCodesAreStuck :=
  ⟨fun _ => ⟨rfl, rfl, rfl, rfl, rfl⟩, fun _ h hrst hr => step_of_reserved h hrst hr,
    fun _ _ hp h => step_phase_le hp h, rfl⟩

end Sys2Proof.Machine

namespace Sys2Proof.Machine

/-! R78, R79 and R81: the rotation and the shift, and the bytes of a word as the digits of its number in base 256. -/

/-- The model's rotation is the library's, whose laws then hold of it. -/
theorem rotr_eq_rotateRight {x : Word} {n : Nat} (h : n < 32) : rotr x n = x.rotateRight n :=
  (BitVec.rotateRight_eq_rotateRightAux_of_lt h).symm

theorem getLsbD_rotr {x : Word} {n i : Nat} (hn : n < 32) (hi : i < 32) :
    (rotr x n).getLsbD i = x.getLsbD ((i + n) % 32) := by
  rw [rotr_eq_rotateRight hn, BitVec.getLsbD_rotateRight, Nat.mod_eq_of_lt hn]
  by_cases hwrap : i + n < 32
  · have hlow : i < 32 - n := by omega
    rw [Nat.mod_eq_of_lt hwrap, decide_eq_true hlow, cond_true, Nat.add_comm]
  · have hhigh : ¬ i < 32 - n := by omega
    have hplace : (i + n) % 32 = i - (32 - n) := by omega
    rw [hplace, decide_eq_false hhigh, cond_false, decide_eq_true hi, Bool.true_and]

@[simp] theorem toNat_shr (x : Word) (n : Nat) : (shr x n).toNat = x.toNat / 2 ^ n := by
  rw [shr, BitVec.toNat_ushiftRight, Nat.shiftRight_eq_div_pow]

@[simp] theorem toNat_byteOf (w : Word) (m : Nat) : (byteOf w m).toNat = w.toNat / 2 ^ (24 - 8 * m) % 2 ^ 8 := by
  rw [byteOf, BitVec.truncate_eq_setWidth, BitVec.toNat_setWidth, toNat_shr]

/-- A byte put `n` bits up in a word loses no bit while it fits. -/
theorem toNat_zeroExtend_shiftLeft (b : Byte) {n : Nat} (h : n ≤ 24) : (b.zeroExtend 32 <<< n).toNat = b.toNat <<< n := by
  have hfits : b.toNat <<< n < 2 ^ 32 := calc
    b.toNat <<< n = b.toNat * 2 ^ n := Nat.shiftLeft_eq _ _
    _ < 2 ^ 8 * 2 ^ n := Nat.mul_lt_mul_of_pos_right b.isLt (Nat.two_pow_pos n)
    _ ≤ 2 ^ 8 * 2 ^ 24 := Nat.mul_le_mul_left _ (Nat.pow_le_pow_right (by decide) h)
  have hwide : (b.zeroExtend 32).toNat = b.toNat := BitVec.toNat_setWidth_of_le (by decide)
  rw [BitVec.toNat_shiftLeft, hwide, Nat.mod_eq_of_lt hfits]

/-- The four bytes lie beside each other, so the `or` of them is their sum. -/
@[simp] theorem toNat_be32 (b0 b1 b2 b3 : Byte) :
    (be32 b0 b1 b2 b3).toNat = b0.toNat * 2 ^ 24 + b1.toNat * 2 ^ 16 + b2.toNat * 2 ^ 8 + b3.toNat := by
  have hb1 := b1.isLt
  have hb2 := b2.isLt
  have hb3 := b3.isLt
  have h2 : b2.toNat <<< 8 + b3.toNat < 2 ^ 16 := by omega
  have h1 : b1.toNat <<< 16 + (b2.toNat <<< 8 + b3.toNat) < 2 ^ 24 := by omega
  have hor : (be32 b0 b1 b2 b3).toNat =
      b0.toNat <<< 24 ||| (b1.toNat <<< 16 ||| (b2.toNat <<< 8 ||| b3.toNat)) := by
    rw [be32, BitVec.toNat_or, BitVec.toNat_or, BitVec.toNat_or, toNat_zeroExtend_shiftLeft b0 (by decide),
      toNat_zeroExtend_shiftLeft b1 (by decide), toNat_zeroExtend_shiftLeft b2 (by decide), Nat.or_assoc, Nat.or_assoc,
      BitVec.toNat_setWidth_of_le (by decide)]
  rw [hor, ← Nat.shiftLeft_add_eq_or_of_lt hb3, ← Nat.shiftLeft_add_eq_or_of_lt h2, ← Nat.shiftLeft_add_eq_or_of_lt h1]
  omega

theorem byteOf_be32 (b0 b1 b2 b3 : Byte) :
    byteOf (be32 b0 b1 b2 b3) 0 = b0 ∧ byteOf (be32 b0 b1 b2 b3) 1 = b1 ∧
    byteOf (be32 b0 b1 b2 b3) 2 = b2 ∧ byteOf (be32 b0 b1 b2 b3) 3 = b3 := by
  have hb0 := b0.isLt
  have hb1 := b1.isLt
  have hb2 := b2.isLt
  have hb3 := b3.isLt
  refine ⟨?_, ?_, ?_, ?_⟩ <;>
  · apply BitVec.eq_of_toNat_eq
    rw [toNat_byteOf, toNat_be32]
    omega

theorem be32_byteOf (w : Word) : be32 (byteOf w 0) (byteOf w 1) (byteOf w 2) (byteOf w 3) = w := by
  have hw := w.isLt
  apply BitVec.eq_of_toNat_eq
  simp only [toNat_be32, toNat_byteOf]
  omega

/-- Settles O43: a word's four bytes are the digits of its number in base 256, most significant first. -/
theorem wordsAndBytesConvert : Obligations.WordsAndBytesConvert :=
  ⟨fun b0 b1 b2 b3 => ⟨toNat_be32 b0 b1 b2 b3, byteOf_be32 b0 b1 b2 b3⟩, be32_byteOf⟩

/-- Settles O42: the rotation is the library's, and the shift divides by a power of two. -/
theorem rotationsAndShifts : Obligations.RotationsAndShifts :=
  ⟨fun _ _ _ _ hn hi => getLsbD_rotr (by omega) hi, toNat_shr⟩

end Sys2Proof.Machine

namespace Sys2Proof.Machine

/-! R86 to R89: the block count, the four ranges of the padded buffer, and the length field as one number. -/

variable {msg : Nat → Byte} {L N i m : Nat}

/-- The blocks hold the message, the `0x80` byte and the length field (R86). -/
theorem le_blockCount (L : Nat) : L + 9 ≤ 64 * blockCount L := by
  unfold blockCount
  omega

/-- Less than one block is left over for the zero bytes (R88). -/
theorem blockCount_lt (L : Nat) : 64 * blockCount L < L + 9 + 64 := by
  unfold blockCount
  omega

/-- Settles O48: with one block less, less than `L + 9` bytes are held. -/
theorem blockCountIsLeast : Obligations.BlockCountIsLeast := by
  intro L
  have hlt := blockCount_lt L
  exact ⟨le_blockCount L, fun n hn => by omega, blockCount_le⟩

/-- The zero bytes fill what the message, the `0x80` byte and the length field leave of the blocks (R88). -/
theorem blockCount_eq_zeroCount (L : Nat) : 64 * blockCount L = L + 1 + zeroCount L + 8 := by
  have hle := le_blockCount L
  unfold zeroCount
  omega

theorem zeroCount_le (L : Nat) : zeroCount L ≤ 63 := by
  have heq := blockCount_eq_zeroCount L
  have hlt := blockCount_lt L
  omega

/-- An accepted length in bits fits the length field (R91). -/
theorem bitLength_toNat (h : L < 2 ^ 61) : (bitLength L).toNat = 8 * L := by
  rw [bitLength, BitVec.toNat_ofNat, Nat.mod_eq_of_lt (by omega)]

/-! The padded byte in each of the ranges of R87. -/

theorem paddedByte_message (h : i < L) : paddedByte msg L N i = msg i := if_pos h

theorem paddedByte_marker : paddedByte msg L N L = 0x80 := by
  rw [paddedByte, if_neg (Nat.lt_irrefl L), if_pos rfl]

theorem paddedByte_zero (h : L < i) (hi : i + 8 < 64 * N) : paddedByte msg L N i = 0x00 := by
  rw [paddedByte, if_neg (by omega), if_neg (by omega), if_pos hi]

theorem paddedByte_length (h : L < i) (hi : 64 * N ≤ i + 8) :
    paddedByte msg L N i = (bitLength L >>> (8 * (64 * N - 1 - i))).truncate 8 := by
  rw [paddedByte, if_neg (by omega), if_neg (by omega), if_neg (by omega)]

/-- Byte `m` of the length field is a digit in base 256 of the number of bits, the first most significant. -/
theorem toNat_paddedByte_length (hL : L < 2 ^ 61) (hN : L + 9 ≤ 64 * N) :
    (paddedByte msg L N (64 * N - 8 + m)).toNat = 8 * L / 256 ^ (8 - 1 - m) % 256 := by
  have hplace : 64 * N - 1 - (64 * N - 8 + m) = 8 - 1 - m := by omega
  have hbase : 2 ^ 8 = 256 := rfl
  rw [paddedByte_length (by omega) (by omega), hplace, BitVec.truncate_eq_setWidth, BitVec.toNat_setWidth,
    BitVec.toNat_ushiftRight, Nat.shiftRight_eq_div_pow, bitLength_toNat hL, pow_mul, hbase]

/-- Bytes that are the digits of a number in base 256, put side by side, give the number back. -/
theorem joinBytes_of_digits {f : Nat → Byte} {n v : Nat} (h : ∀ m, m < n → (f m).toNat = v / 256 ^ (n - 1 - m) % 256) :
    joinBytes ((List.range n).map f) = v % 256 ^ n := by
  induction n generalizing f with
  | zero => rw [pow_zero, Nat.mod_one]; rfl
  | succ n ih =>
    have hhead : (f 0).toNat = v / 256 ^ n % 256 := h 0 (Nat.succ_pos n)
    have htail : joinBytes ((List.range n).map (f ∘ Nat.succ)) = v % 256 ^ n := ih fun m hm => by
      have hplace : n + 1 - 1 - (m + 1) = n - 1 - m := by omega
      rw [← hplace]
      exact h (m + 1) (Nat.succ_lt_succ hm)
    rw [List.range_succ_eq_map, List.map_cons, List.map_map, joinBytes, htail, hhead, List.length_map, List.length_range,
      Nat.mod_pow_succ]
    ring

/-- The last eight bytes are the number of bits of the message, big-endian (R87). -/
theorem joinBytes_lengthField (msg : Nat → Byte) (hL : L < 2 ^ 61) (hN : L + 9 ≤ 64 * N) :
    joinBytes ((List.range 8).map fun m => paddedByte msg L N (64 * N - 8 + m)) = 8 * L := by
  rw [joinBytes_of_digits fun m _ => toNat_paddedByte_length hL hN, Nat.mod_eq_of_lt (by omega)]

/-- Settles O49: each range of the buffer by its own lemma, and the block count says where the ranges meet. -/
theorem paddedBufferLayout : Obligations.PaddedBufferLayout := by
  rintro msg L N hL rfl
  have hsize := blockCount_eq_zeroCount L
  exact ⟨hsize, zeroCount_le L, fun i hi => paddedByte_message hi, paddedByte_marker,
    fun i hi hz => paddedByte_zero hi (by omega), joinBytes_lengthField msg hL (le_blockCount L)⟩

/-- Settles O50: the last eight bytes of a buffer give the length, and the bytes below it the message. -/
theorem paddingIsInjective : Obligations.PaddingIsInjective := by
  intro msg msg' L L' hL hL' hcount heq
  have hN := le_blockCount L
  have hfield : ((List.range 8).map fun m => paddedByte msg L (blockCount L) (64 * blockCount L - 8 + m)) =
      (List.range 8).map fun m => paddedByte msg' L' (blockCount L') (64 * blockCount L' - 8 + m) := by
    rw [← hcount] at heq ⊢
    refine List.map_congr_left fun m hm => heq _ ?_
    have hm8 := List.mem_range.1 hm
    omega
  have hlen : L = L' := by
    have hbits : 8 * L = 8 * L' := by
      rw [← joinBytes_lengthField msg hL hN, hfield, joinBytes_lengthField msg' hL' (le_blockCount L')]
    omega
  subst hlen
  refine ⟨rfl, fun i hi => ?_⟩
  have hbyte := heq i (by omega)
  rwa [paddedByte_message hi, paddedByte_message hi] at hbyte

end Sys2Proof.Machine

namespace Sys2Proof.Machine

/-- Settles O37: RESET and START leave a phase in which nothing is tied to the message, and the host's writes and the core's own step
keep the agreement. -/
theorem everyStepKeepsSound : Obligations.EveryStepKeepsSound := by
  intro s t hi hs hstep
  obtain ⟨hr, ⟨-, rfl⟩ | ⟨-, -, -, rfl⟩ | ⟨-, -, u, hu, rfl⟩⟩ := step_cases hstep
  · exact Sound.of_unbound (.inl rfl)
  · exact Sound.of_unbound (.inr (.inl rfl))
  · exact ((hs.afterHostWrites hi hr).after_coreStep (hi.afterHostWrites hr) hu).advance

end Sys2Proof.Machine

namespace Sys2Proof.Machine

/-! R98, R139: the whole next state of LDB and the byte it loads. -/

variable {s : State} {msg : Nat → Byte} {L N i : Nat}

/-- The end of an inner step, as one update of the position. -/
theorem State.nextInner_eq (s : State) (last : Nat) (restart : BitVec 6) (after : BitVec 4) :
    s.nextInner last restart after = { s with
      k := if s.k.toNat < last then s.k + 1 else restart
      phase := if s.k.toNat < last then s.phase else after } := by
  rcases s.nextInner_cases last restart after with ⟨h, e⟩ | ⟨h, e⟩
  · rw [e, if_pos h, if_pos h]
  · rw [e, if_neg (Nat.not_lt.2 h), if_neg (Nat.not_lt.2 h)]

theorem exec_ldb (s : State) : exec .ldb s = .next { s with
    BLK := s.BLK.set s.k.toNat s.loadedByte (inner_lt s.k)
    k := if s.k.toNat < 63 then s.k + 1 else 0
    phase := if s.k.toNat < 63 then s.phase else Phase.wld } :=
  congrArg Host.Outcome.next ((s.setBlk s.loadedByte).nextInner_eq 63 0 Phase.wld)

/-- In the buffer of an accepted length the byte loaded is the padded byte at the index. -/
theorem State.loadedByte_eq (hL : s.LEN.toNat < 2 ^ 61) (hi : s.byteIndex < 64 * s.N.toNat) :
    s.loadedByte = paddedByte s.MSG.read s.LEN.toNat s.N.toNat s.byteIndex :=
  if_pos (by rw [State.inPaddedBuffer, decide_eq_true hi, Bool.and_true]; exact decide_eq_true hL)

/-- A byte of the last eight, above the message, is a digit in base 256 of the number of bits, wherever the message ends. -/
theorem toNat_paddedByte_lengthField (hL : L < 2 ^ 61) (h : L < i) (hi : 64 * N ≤ i + 8) :
    (paddedByte msg L N i).toNat = 8 * L / 256 ^ (64 * N - 1 - i) % 256 := by
  have hbase : 2 ^ 8 = 256 := rfl
  rw [paddedByte_length h hi, BitVec.truncate_eq_setWidth, BitVec.toNat_setWidth, BitVec.toNat_ushiftRight,
    Nat.shiftRight_eq_div_pow, bitLength_toNat hL, pow_mul, hbase]

/-- Settles O16: the padded byte in each range of the index, and the port by its definition. -/
theorem ldbLoadsPaddedByte : Obligations.LdbLoadsPaddedByte := by
  refine ⟨rfl, fun s hf => ⟨?_, State.msgAddr_toNat⟩, fun s => ⟨s.loadedByte, exec_ldb s, ?_⟩⟩
  · rw [State.msgRe_iff, and_iff_right hf]
    rfl
  · intro i hidx hL hi
    have hbyte : s.loadedByte = paddedByte s.MSG.read s.LEN.toNat s.N.toNat i := by
      subst hidx
      exact State.loadedByte_eq hL hi
    rw [hbyte]
    refine ⟨paddedByte_message, ?_, fun h hz => paddedByte_zero h (by omega), fun h hl => ?_⟩
    · rintro rfl
      exact paddedByte_marker
    · exact toNat_paddedByte_lengthField hL h (by omega)

end Sys2Proof.Machine

namespace Sys2Proof.Machine

/-! R99: the 64 LDB steps of a block. The state after `n` of them is written out, and each step goes from one to the next. -/

variable {s : State} {n : Nat}

/-- A sequence of states, each the next of the one before, is a run. -/
theorem Steps.of_path {path : Nat → State} (h : ∀ i, i < n → step (path i) = .next (path (i + 1))) :
    Steps n (path 0) (path n) := by
  induction n with
  | zero => rfl
  | succ n ih => exact (ih fun i hi => h i (by omega)).append (n := 1) ⟨_, h n (by omega), rfl⟩

/-- `s` with the next `n` moves of the host spent, and nothing done by the core. -/
def State.afterMoves (s : State) (n : Nat) : State :=
  { s with MSG := s.MSG.writeAll (s.hostWrites n), host := s.host.drop n, draw := s.draw + n }

theorem State.afterMoves_zero (s : State) : s.afterMoves 0 = s := rfl

theorem State.afterMoves_move (s : State) (n : Nat) : (s.afterMoves n).move = (s.host.drop n).headD HostMove.none := rfl

theorem State.hostWrites_snoc (s : State) (n : Nat) :
    s.hostWrites (n + 1) = s.hostWrites n ++ (s.afterMoves n).move.writes := by
  rw [State.afterMoves_move, State.hostWrites, List.take_add_one, List.flatMap_append, State.hostWrites,
    List.headD_eq_head?_getD, List.head?_drop]
  cases s.host[n]? <;> simp [HostMove.none]

/-- Spending one move more. -/
theorem State.afterMoves_succ (s : State) (n : Nat) :
    s.afterMoves (n + 1) = (s.afterMoves n).afterHostWrites.advance := by
  have hMSG : s.MSG.writeAll (s.hostWrites (n + 1)) = (s.afterMoves n).afterHostWrites.MSG := by
    rw [s.hostWrites_snoc, Memory.writeAll_append]
    rfl
  have hhost : s.host.drop (n + 1) = (s.host.drop n).tail := by rw [List.tail_drop]
  rw [State.afterMoves, hMSG, hhost]
  rfl

/-- The move after the first `n` keeps the duty that the first `m` keep, `n < m`. -/
theorem State.afterMoves_keepsDuty {m L : Nat} (h : ∀ x ∈ s.host.take m, x.keepsDuty L) (hn : n < m) :
    (s.afterMoves n).move.keepsDuty L := by
  refine State.move_keepsDuty (n := 0) fun x hx => h x ?_
  replace hx : x ∈ (s.host.drop n).take (0 + 1) := hx
  rw [List.take_drop] at hx
  exact (List.take_sublist_take_left (by omega)).subset (List.mem_of_mem_drop hx)

/-- The host's writes of moves that keep the duty leave the message as it is. -/
theorem State.afterMoves_read (hm : s.MSG.wf = true) (hd : ∀ m ∈ s.host.take n, m.keepsDuty s.LEN.toNat) {a : Nat}
    (ha : a < s.LEN.toNat) : (s.afterMoves n).MSG.read a = s.MSG.read a :=
  Memory.read_writeAll_above hm (State.hostWrites_above hd) ha

/-! The LDB steps of a block. -/

/-- The padded buffer looks at the message below its length only. -/
theorem paddedByte_congr {f g : Nat → Byte} {L : Nat} (h : ∀ a, a < L → f a = g a) (N i : Nat) :
    paddedByte f L N i = paddedByte g L N i := by
  unfold paddedByte
  split
  · exact h i (by assumption)
  · rfl

/-- Counting `k` up to 63 and then setting it to 0 is counting modulo 64. -/
theorem inner_count (k : BitVec 6) : (if k.toNat < 63 then k + 1 else 0) = k + 1 := by
  revert k
  decide

theorem coreStep_ldb (hp : s.phase = 0x2) : coreStep s = .next { s with
    BLK := s.BLK.set s.k.toNat s.loadedByte (inner_lt s.k)
    k := s.k + 1
    phase := if s.k.toNat < 63 then Phase.ldb else Phase.wld } := by
  rw [coreStep_eq_exec, hp]
  refine (exec_ldb s).trans ?_
  rw [hp, inner_count]
  rfl

/-- The block buffer with its first `n` bytes those of block `j` of the padded buffer. Known by its elements alone: unfolded, it
makes every comparison of two states slow. -/
@[irreducible] def State.loadedBlock (s : State) (n : Nat) : Vector Byte 64 :=
  Vector.ofFn fun m =>
    if m.val < n then paddedByte s.MSG.read s.LEN.toNat s.N.toNat (64 * s.j.toNat + m) else s.BLK[m]

theorem State.loadedBlock_getElem (s : State) (n : Nat) {m : Nat} (hm : m < 64) : (s.loadedBlock n)[m] =
    if m < n then paddedByte s.MSG.read s.LEN.toNat s.N.toNat (64 * s.j.toNat + m) else s.BLK[m] := by
  unfold State.loadedBlock
  exact Vector.getElem_ofFn hm

theorem State.loadedBlock_zero (s : State) : s.loadedBlock 0 = s.BLK :=
  Vector.ext fun m hm => by rw [s.loadedBlock_getElem 0 hm, if_neg (Nat.not_lt_zero m)]

/-- One more byte loaded. -/
theorem State.loadedBlock_succ (s : State) (hn : n < 64) :
    (s.loadedBlock n).set n (paddedByte s.MSG.read s.LEN.toNat s.N.toNat (64 * s.j.toNat + n)) =
      s.loadedBlock (n + 1) := by
  refine Vector.ext fun m hm => ?_
  rw [Vector.getElem_set, s.loadedBlock_getElem n hm, s.loadedBlock_getElem (n + 1) hm]
  by_cases h : n = m
  · rw [if_pos h, if_pos (by omega), h]
  · have hiff : m < n ↔ m < n + 1 := by omega
    simp only [if_neg h, hiff]

/-- The state after `n` LDB steps from the beginning of a block. -/
def State.afterLoads (s : State) (n : Nat) : State :=
  { s.afterMoves n with
    BLK := s.loadedBlock n
    k := BitVec.ofNat 6 n
    phase := if n < 64 then Phase.ldb else Phase.wld }

theorem State.afterLoads_zero (hp : s.phase = 0x2) (hk : s.k = 0) : s.afterLoads 0 = s := by
  rw [State.afterLoads, s.loadedBlock_zero, s.afterMoves_zero]
  show { s with k := 0, phase := 0x2 } = s
  rw [← hk, ← hp]

theorem State.afterLoads_k (s : State) (hn : n < 64) : (s.afterLoads n).k.toNat = n := by
  rw [State.afterLoads, BitVec.toNat_ofNat, Nat.mod_eq_of_lt hn]

theorem State.afterLoads_succ (s : State) (hn : n < 64) :
    s.afterLoads (n + 1) = { (s.afterMoves n).afterHostWrites.advance with
      BLK := (s.loadedBlock n).set n (paddedByte s.MSG.read s.LEN.toNat s.N.toNat (64 * s.j.toNat + n))
      k := BitVec.ofNat 6 n + 1
      phase := if n < 63 then Phase.ldb else Phase.wld } := by
  have hlast : n + 1 < 64 ↔ n < 63 := Nat.succ_lt_succ_iff
  simp only [State.afterLoads, s.afterMoves_succ, s.loadedBlock_succ hn, BitVec.ofNat_add, hlast]
  rfl

/-- The byte that the LDB step after the first `n` loads: the host's writes, those of the step's own move among them, leave it
as it was. -/
theorem State.afterLoads_loadedByte (hm : s.MSG.wf = true) (hL : s.LEN.toNat < 2 ^ 61) (hj : s.j.toNat < s.N.toNat)
    (hd : ∀ m ∈ s.host.take 64, m.keepsDuty s.LEN.toNat) (hn : n < 64) :
    (s.afterLoads n).afterHostWrites.loadedByte =
      paddedByte s.MSG.read s.LEN.toNat s.N.toNat (64 * s.j.toNat + n) := by
  have hidx : (s.afterLoads n).afterHostWrites.byteIndex = 64 * s.j.toNat + n := by
    rw [State.byteIndex, State.afterHostWrites_k, s.afterLoads_k hn]
    rfl
  have hmem : (s.afterLoads n).afterHostWrites.MSG = (s.afterMoves (n + 1)).MSG :=
    (congrArg State.MSG (s.afterMoves_succ n)).symm
  have hin : (s.afterLoads n).afterHostWrites.byteIndex < 64 * s.N.toNat := by omega
  rw [State.loadedByte_eq (s := (s.afterLoads n).afterHostWrites) hL hin, hidx, hmem]
  exact paddedByte_congr (fun a => State.afterMoves_read hm fun m hmt =>
    hd m ((List.take_sublist_take_left (by omega)).subset hmt)) _ _

theorem State.step_afterLoads (hm : s.MSG.wf = true) (hL : s.LEN.toNat < 2 ^ 61) (hj : s.j.toNat < s.N.toNat)
    (hd : ∀ m ∈ s.host.take 64, m.keepsDuty s.LEN.toNat) (hn : n < 64) :
    step (s.afterLoads n) = .next (s.afterLoads (n + 1)) := by
  have hp : (s.afterLoads n).phase = 0x2 := if_pos hn
  have hmove : (s.afterLoads n).move.keepsDuty s.LEN.toNat := State.afterMoves_keepsDuty hd hn
  have hbusy : (s.afterLoads n).busy = true := by simp [State.busy_eq, hp]
  rw [step_of_busy hmove hbusy (coreStep_ldb hp), State.afterLoads_loadedByte hm hL hj hd hn, s.afterLoads_succ hn]
  simp only [State.afterHostWrites_k, s.afterLoads_k hn]
  rfl

/-- Settles O28: the state after 64 LDB steps is written out, and the writers of `BLK` are those of O24. -/
theorem loadFillsBlockBuffer : Obligations.LoadFillsBlockBuffer := by
  refine ⟨fun s t h hrst => ?_, fun s hm hp hk hL hj hd => ?_⟩
  · obtain ⟨-, -, -, hBLK, -⟩ := registerWriters s t h hrst
    exact hBLK
  · have hrun : Steps 64 (s.afterLoads 0) (s.afterLoads 64) :=
      Steps.of_path fun n => State.step_afterLoads hm hL hj hd
    rw [State.afterLoads_zero hp hk] at hrun
    refine ⟨s.afterLoads 64, hrun, fun m hlt => ?_, ?_, fun a => State.afterMoves_read hm hd, rfl⟩
    · rw [State.blk, dif_pos hlt]
      exact (s.loadedBlock_getElem 64 hlt).trans (if_pos hlt)
    · exact Memory.wf_writeAll hm fun c hc => (State.hostWrites_above hd c hc).2

end Sys2Proof.Machine

namespace Sys2Proof.Machine

/-! R101, R102: the small sigmas, bit by bit. -/

theorem getLsbD_shr (x : Word) (n i : Nat) : (shr x n).getLsbD i = (decide (i + n < 32) && x.getLsbD (i + n)) := by
  rw [shr, BitVec.getLsbD_ushiftRight, Nat.add_comm n i]
  by_cases h : i + n < 32
  · rw [decide_eq_true h, Bool.true_and]
  · rw [decide_eq_false h, Bool.false_and, BitVec.getLsbD_of_ge x _ (Nat.le_of_not_lt h)]

/-- Settles O44: the bits of a rotation and those of a shift, three terms each. -/
theorem smallSigmasByBits : Obligations.SmallSigmasByBits := by
  intro x i hi
  constructor
  · rw [smallSigma0, BitVec.getLsbD_xor, BitVec.getLsbD_xor, getLsbD_rotr (by decide) hi, getLsbD_rotr (by decide) hi,
      getLsbD_shr]
  · rw [smallSigma1, BitVec.getLsbD_xor, BitVec.getLsbD_xor, getLsbD_rotr (by decide) hi, getLsbD_rotr (by decide) hi,
      getLsbD_shr]

end Sys2Proof.Machine

namespace Sys2Proof.Machine

/-! R105, R106, R140, R141: the whole next states of WLD and WEX and the words they form. -/

variable {s : State}

theorem exec_wld (s : State) : exec .wld s = .next { s with
    W := s.W.set s.k.toNat s.packedWord (inner_lt s.k)
    k := if s.k.toNat < 15 then s.k + 1 else 16
    phase := if s.k.toNat < 15 then s.phase else Phase.wex } :=
  congrArg Host.Outcome.next ((s.setW s.packedWord).nextInner_eq 15 16 Phase.wex)

theorem exec_wex (s : State) : exec .wex s = .next { s with
    W := s.W.set s.k.toNat s.expandedWord (inner_lt s.k)
    k := if s.k.toNat < 63 then s.k + 1 else 0
    phase := if s.k.toNat < 63 then s.phase else Phase.rin } :=
  congrArg Host.Outcome.next ((s.setW s.expandedWord).nextInner_eq 63 0 Phase.rin)

/-- Byte `m` of a packed word is the `m`-th of the bytes it was packed from. -/
theorem byteOf_be32_apply (f : Nat → Byte) {m : Nat} (hm : m < 4) : byteOf (be32 (f 0) (f 1) (f 2) (f 3)) m = f m := by
  obtain ⟨h0, h1, h2, h3⟩ := byteOf_be32 (f 0) (f 1) (f 2) (f 3)
  match m, hm with
  | 0, _ => exact h0
  | 1, _ => exact h1
  | 2, _ => exact h2
  | 3, _ => exact h3

/-- Byte `m` of a word as a digit of its number in base 256. -/
theorem toNat_byteOf_digit (w : Word) {m : Nat} (hm : m < 4) : (byteOf w m).toNat = w.toNat / 256 ^ (3 - m) % 256 := by
  have hexp : 24 - 8 * m = 8 * (3 - m) := by omega
  have hbase : 2 ^ 8 = 256 := rfl
  rw [toNat_byteOf, hexp, pow_mul, hbase]

theorem State.packedWord_eq (hk : s.k.toNat < 16) : s.packedWord =
    be32 (s.blk (4 * s.k.toNat)) (s.blk (4 * s.k.toNat + 1)) (s.blk (4 * s.k.toNat + 2)) (s.blk (4 * s.k.toNat + 3)) :=
  if_pos hk

theorem State.expandedWord_eq (hk : 16 ≤ s.k.toNat) : s.expandedWord =
    expandWord (s.w (s.k.toNat - 2)) (s.w (s.k.toNat - 7)) (s.w (s.k.toNat - 15)) (s.w (s.k.toNat - 16)) :=
  if_pos hk

/-- The wraps of the three sums are one reduction at the end. -/
theorem toNat_expandWord (w2 w7 w15 w16 : Word) : (expandWord w2 w7 w15 w16).toNat =
    ((smallSigma1 w2).toNat + w7.toNat + (smallSigma0 w15).toNat + w16.toNat) % 2 ^ 32 := by
  simp only [expandWord, BitVec.toNat_add, Nat.mod_add_mod]

/-- Settles O17: the word stored is `be32` of the four block bytes, whose digits in base 256 they are. -/
theorem wldPacksBigEndian : Obligations.WldPacksBigEndian := by
  refine ⟨rfl, fun s => ⟨s.packedWord, exec_wld s, fun hk m hm => ?_⟩⟩
  rw [← toNat_byteOf_digit s.packedWord hm, State.packedWord_eq (by omega)]
  exact congrArg BitVec.toNat (byteOf_be32_apply (fun m => s.blk (4 * s.k.toNat + m)) hm)

/-- Settles O18: the word stored is the recurrence's, a sum of four words reduced once. -/
theorem wexExpandsModulo : Obligations.WexExpandsModulo := by
  refine ⟨rfl, fun s => ⟨s.expandedWord, exec_wex s, fun hk => ?_⟩⟩
  rw [State.expandedWord_eq hk, toNat_expandWord]

end Sys2Proof.Machine

namespace Sys2Proof.Machine

/-! R107: the 16 WLD and 48 WEX steps of a block. Both store the next word of the schedule; the state after `n` of them is
written out, and each step goes from one to the next. -/

variable {s : State} {n : Nat}

/-- The phase in which word `n` of a schedule is stored, and the phase after the last. -/
def schedulePhase (n : Nat) : BitVec 4 :=
  if n < 16 then Phase.wld else if n < 64 then Phase.wex else Phase.rin

theorem schedulePhase_wld (h : n < 16) : schedulePhase n = 0x3 := if_pos h

theorem schedulePhase_wex (h : 16 ≤ n) (h' : n < 64) : schedulePhase n = 0x4 :=
  (if_neg (Nat.not_lt.2 h)).trans (if_pos h')

theorem schedulePhase_rin (h : 64 ≤ n) : schedulePhase n = 0x5 :=
  (if_neg (by omega)).trans (if_neg (Nat.not_lt.2 h))

/-- Counting `k` up to 15 and then setting it to 16 is counting. -/
theorem load_count : ∀ k : BitVec 6, k.toNat < 16 → (if k.toNat < 15 then k + 1 else 16) = k + 1 := by
  decide

theorem load_phase (h : n < 16) : (if n < 15 then 0x3 else Phase.wex) = schedulePhase (n + 1) := by
  split
  · exact (schedulePhase_wld (by omega)).symm
  · exact (schedulePhase_wex (by omega) (by omega)).symm

theorem expand_phase (h : 16 ≤ n) (h' : n < 64) : (if n < 63 then 0x4 else Phase.rin) = schedulePhase (n + 1) := by
  split
  · exact (schedulePhase_wex (by omega) (by omega)).symm
  · exact (schedulePhase_rin (by omega)).symm

/-- With the words below `k` those of the schedule of `BLK`, the core's own step in WLD and in WEX stores the next. -/
theorem coreStep_schedule (hp : s.phase = schedulePhase s.k.toNat)
    (hW : ∀ i, i < s.k.toNat → s.w i = Reference.schedule s.blk i) :
    coreStep s = .next { s with
      W := s.W.set s.k.toNat (Reference.schedule s.blk s.k.toNat) (inner_lt s.k)
      k := s.k + 1
      phase := schedulePhase (s.k.toNat + 1) } := by
  by_cases hk : s.k.toNat < 16
  · rw [schedulePhase_wld hk] at hp
    rw [coreStep_eq_exec, hp]
    refine (exec_wld s).trans ?_
    rw [hp, load_count s.k hk, load_phase hk, State.packedWord_eq hk, ← Reference.schedule_loaded _ hk]
  · have hk' : 16 ≤ s.k.toNat := Nat.le_of_not_lt hk
    rw [schedulePhase_wex hk' s.k.isLt] at hp
    rw [coreStep_eq_exec, hp]
    refine (exec_wex s).trans ?_
    rw [hp, inner_count, expand_phase hk' s.k.isLt, State.expandedWord_eq hk', hW _ (by omega), hW _ (by omega),
      hW _ (by omega), hW _ (by omega), ← Reference.schedule_expanded _ hk']

/-- The schedule registers with the first `n` words those of the schedule of `BLK`. Known by its elements alone, as
`State.loadedBlock` is. -/
@[irreducible] def State.scheduledWords (s : State) (n : Nat) : Vector Word 64 :=
  Vector.ofFn fun i => if i.val < n then Reference.schedule s.blk i else s.W[i]

theorem State.scheduledWords_getElem (s : State) (n : Nat) {i : Nat} (hi : i < 64) :
    (s.scheduledWords n)[i] = if i < n then Reference.schedule s.blk i else s.W[i] := by
  unfold State.scheduledWords
  exact Vector.getElem_ofFn hi

theorem State.scheduledWords_zero (s : State) : s.scheduledWords 0 = s.W :=
  Vector.ext fun i hi => by rw [s.scheduledWords_getElem 0 hi, if_neg (Nat.not_lt_zero i)]

/-- One more word stored. -/
theorem State.scheduledWords_succ (s : State) (hn : n < 64) :
    (s.scheduledWords n).set n (Reference.schedule s.blk n) = s.scheduledWords (n + 1) := by
  refine Vector.ext fun i hi => ?_
  rw [Vector.getElem_set, s.scheduledWords_getElem n hi, s.scheduledWords_getElem (n + 1) hi]
  by_cases h : n = i
  · rw [if_pos h, if_pos (by omega), h]
  · have hiff : i < n ↔ i < n + 1 := by omega
    simp only [if_neg h, hiff]

/-- The state after `n` steps of WLD and WEX from the beginning of WLD. -/
def State.afterWords (s : State) (n : Nat) : State :=
  { s.afterMoves n with
    W := s.scheduledWords n
    k := BitVec.ofNat 6 n
    phase := schedulePhase n }

theorem State.afterWords_zero (hp : s.phase = 0x3) (hk : s.k = 0) : s.afterWords 0 = s := by
  rw [State.afterWords, s.scheduledWords_zero, s.afterMoves_zero]
  show { s with k := 0, phase := 0x3 } = s
  rw [← hk, ← hp]

theorem State.afterWords_k (s : State) (hn : n < 64) : (s.afterWords n).k.toNat = n := by
  rw [State.afterWords, BitVec.toNat_ofNat, Nat.mod_eq_of_lt hn]

/-- The words stored so far. -/
theorem State.afterWords_w (s : State) {i : Nat} (hi : i < n) (h64 : i < 64) :
    (s.afterWords n).w i = Reference.schedule s.blk i := by
  rw [State.w, dif_pos h64]
  exact (s.scheduledWords_getElem n h64).trans (if_pos hi)

theorem State.afterWords_busy (s : State) (hn : n < 64) : (s.afterWords n).busy = true := by
  show busyAt (schedulePhase n) = true
  by_cases h : n < 16
  · rw [schedulePhase_wld h]
    rfl
  · rw [schedulePhase_wex (Nat.le_of_not_lt h) hn]
    rfl

theorem State.afterWords_succ (s : State) (hn : n < 64) :
    s.afterWords (n + 1) = { (s.afterMoves n).afterHostWrites.advance with
      W := (s.scheduledWords n).set n (Reference.schedule s.blk n)
      k := BitVec.ofNat 6 n + 1
      phase := schedulePhase (n + 1) } := by
  simp only [State.afterWords, s.afterMoves_succ, s.scheduledWords_succ hn, BitVec.ofNat_add]
  rfl

theorem State.step_afterWords (hd : ∀ m ∈ s.host.take 64, m.keepsDuty s.LEN.toNat) (hn : n < 64) :
    step (s.afterWords n) = .next (s.afterWords (n + 1)) := by
  have hk : (s.afterWords n).afterHostWrites.k.toNat = n := s.afterWords_k hn
  have hp : (s.afterWords n).afterHostWrites.phase = schedulePhase (s.afterWords n).afterHostWrites.k.toNat := by
    rw [hk]
    rfl
  have hW : ∀ i, i < (s.afterWords n).afterHostWrites.k.toNat →
      (s.afterWords n).afterHostWrites.w i = Reference.schedule s.blk i := fun i hi =>
    s.afterWords_w (by omega) (by omega)
  have hmove : (s.afterWords n).move.keepsDuty s.LEN.toNat := State.afterMoves_keepsDuty hd hn
  rw [step_of_busy hmove (s.afterWords_busy hn) (coreStep_schedule hp hW), s.afterWords_succ hn]
  simp only [hk]
  rfl

/-- Settles O29: the state after the 64 steps is written out, its words all those of the schedule. -/
theorem scheduleIsComputed : Obligations.ScheduleIsComputed := by
  intro s hp hk hd
  have hrun : Steps 64 (s.afterWords 0) (s.afterWords 64) := Steps.of_path fun n => State.step_afterWords hd
  rw [State.afterWords_zero hp hk] at hrun
  refine ⟨s.afterWords 64, hrun, fun i hi => s.afterWords_w hi hi, fun hm => ⟨?_, fun a => ?_⟩, rfl⟩
  · exact Memory.wf_writeAll hm fun c hc => (State.hostWrites_above hd c hc).2
  · exact State.afterMoves_read hm hd

end Sys2Proof.Machine

namespace Sys2Proof.Machine

/-! R111 to R114: the functions of a round, bit by bit. -/

theorem getLsbD_three_rotations (x : Word) {a b c i : Nat} (ha : a < 32) (hb : b < 32) (hc : c < 32) (hi : i < 32) :
    (rotr x a ^^^ rotr x b ^^^ rotr x c).getLsbD i =
      ((x.getLsbD ((i + a) % 32) ^^ x.getLsbD ((i + b) % 32)) ^^ x.getLsbD ((i + c) % 32)) := by
  rw [BitVec.getLsbD_xor, BitVec.getLsbD_xor, getLsbD_rotr ha hi, getLsbD_rotr hb hi, getLsbD_rotr hc hi]

/-- Settles O45: both are three rotations. -/
theorem bigSigmasByBits : Obligations.BigSigmasByBits := fun x _ hi =>
  ⟨getLsbD_three_rotations x (by decide) (by decide) (by decide) hi,
    getLsbD_three_rotations x (by decide) (by decide) (by decide) hi⟩

theorem getLsbD_ch (x y z : Word) {i : Nat} (hi : i < 32) :
    (ch x y z).getLsbD i = if x.getLsbD i then y.getLsbD i else z.getLsbD i := by
  rw [ch, BitVec.getLsbD_xor, BitVec.getLsbD_and, BitVec.getLsbD_and, BitVec.getLsbD_not, decide_eq_true hi]
  cases x.getLsbD i <;> simp

theorem getLsbD_maj (x y z : Word) (i : Nat) : (maj x y z).getLsbD i =
    ((x.getLsbD i && y.getLsbD i) ^^ (x.getLsbD i && z.getLsbD i) ^^ (y.getLsbD i && z.getLsbD i)) := by
  simp only [maj, BitVec.getLsbD_xor, BitVec.getLsbD_and]

/-- The xor of the three pairwise ands is the majority. -/
theorem xor_ands_iff_majority : ∀ a b c : Bool,
    ((a && b) ^^ (a && c) ^^ (b && c)) = true ↔ 2 ≤ a.toNat + b.toNat + c.toNat := by
  decide

/-- Settles O46: `Ch` by the bit of `x`, `Maj` by the eight cases of three bits. -/
theorem chooseAndMajority : Obligations.ChooseAndMajority := by
  refine fun x y z i hi => ⟨getLsbD_ch x y z hi, ?_⟩
  rw [getLsbD_maj, xor_ands_iff_majority]

end Sys2Proof.Machine

namespace Sys2Proof.Machine

/-! R115, R117, R118, R120, R142 to R144: the whole next states of RIN, RND and FLD, and the sums of a round. -/

/-- Settles O19: RIN is one update of the state. -/
theorem rinCopiesHashState : Obligations.RinCopiesHashState := ⟨rfl, fun _ => rfl⟩

theorem exec_rnd (s : State) : exec .rnd s = .next { s with
    V := round s.V (Rom.roundConstant s.k.toNat) (s.w s.k.toNat)
    k := if s.k.toNat < 63 then s.k + 1 else 0
    phase := if s.k.toNat < 63 then s.phase else Phase.fld } :=
  congrArg Host.Outcome.next
    (State.nextInner_eq { s with V := round s.V (Rom.roundConstant s.k.toNat) (s.w s.k.toNat) } 63 0 Phase.fld)

theorem exec_fld (s : State) : exec .fld s = .next { s with
    H := foldInto s.H s.V
    j := s.nextJ
    k := 0
    phase := if s.j.toNat + 1 < s.N.toNat then Phase.ldb else Phase.ser } := rfl

/-- The wraps of the sums in `T1` are one reduction at the end. -/
theorem toNat_roundT1 (v : Vector Word 8) (kt wt : Word) : (roundT1 v kt wt).toNat =
    (v[7].toNat + (bigSigma1 v[4]).toNat + (ch v[4] v[5] v[6]).toNat + kt.toNat + wt.toNat) % 2 ^ 32 := by
  simp only [roundT1, BitVec.toNat_add, Nat.mod_add_mod]

theorem toNat_roundT2 (v : Vector Word 8) :
    (roundT2 v).toNat = ((bigSigma0 v[0]).toNat + (maj v[0] v[1] v[2]).toNat) % 2 ^ 32 := by
  rw [roundT2, BitVec.toNat_add]

/-- Settles O20: the round shifts six registers and writes two sums, each reduced once. -/
theorem rndRunsOneRound : Obligations.RndRunsOneRound := by
  refine ⟨rfl, fun s => ⟨_, exec_rnd s, ?_⟩⟩
  rintro T1 T2 rfl rfl
  refine ⟨?_, rfl, rfl, rfl, ?_, rfl, rfl, rfl⟩
  · show (roundT1 s.V _ _ + roundT2 s.V).toNat = _
    rw [BitVec.toNat_add, toNat_roundT1, toNat_roundT2, ← Nat.add_mod]
  · show (s.V[3] + roundT1 s.V _ _).toNat = _
    rw [BitVec.toNat_add, toNat_roundT1, Nat.add_mod_mod]

/-- Settles O21: the fold word by word, and the counter where it fits. -/
theorem fldFoldsAndAdvances : Obligations.FldFoldsAndAdvances := by
  refine ⟨rfl, fun s => ⟨foldInto s.H s.V, s.nextJ, exec_fld s, fun i hi => ?_, s.nextJ_toNat⟩⟩
  rw [foldInto_getElem, BitVec.toNat_add]

end Sys2Proof.Machine

namespace Sys2Proof.Machine

/-! R121: RIN, the 64 RND steps and FLD of a block. The state after RIN and `n` rounds is written out, and each step goes from
one to the next. -/

variable {s t u : State} {n : Nat}

/-- A state and a number of steps determine where they lead. -/
theorem Steps.unique (ht : Steps n s t) (hu : Steps n s u) : t = u := by
  induction n generalizing s with
  | zero => exact ht.symm.trans hu
  | succ n ih =>
    obtain ⟨x, hx, ht⟩ := ht
    obtain ⟨y, hy, hu⟩ := hu
    cases hx.symm.trans hy
    exact ih ht hu

theorem coreStep_rin (hp : s.phase = 0x5) : coreStep s = .next { s with V := s.H, k := 0, phase := Phase.rnd } := by
  rw [coreStep_eq_exec, hp]
  rfl

theorem coreStep_rnd (hp : s.phase = 0x6) : coreStep s = .next { s with
    V := round s.V (Rom.roundConstant s.k.toNat) (s.w s.k.toNat)
    k := s.k + 1
    phase := if s.k.toNat < 63 then Phase.rnd else Phase.fld } := by
  rw [coreStep_eq_exec, hp]
  refine (exec_rnd s).trans ?_
  rw [hp, inner_count]
  rfl

/-- Below the block count the block counter counts. -/
theorem State.nextJ_eq (hj : s.j.toNat < s.N.toNat) : s.nextJ = s.j + 1 :=
  if_pos (Nat.lt_of_le_of_lt hj s.N.isLt)

theorem coreStep_fld (hp : s.phase = 0x7) (hj : s.j.toNat < s.N.toNat) : coreStep s = .next { s with
    H := foldInto s.H s.V
    j := s.j + 1
    k := 0
    phase := if s.j.toNat + 1 < s.N.toNat then Phase.ldb else Phase.ser } := by
  rw [coreStep_eq_exec, hp]
  refine (exec_fld s).trans ?_
  rw [State.nextJ_eq hj]

/-- The state after RIN and `n` rounds, from the beginning of RIN. -/
def State.afterRounds (s : State) (n : Nat) : State :=
  { s.afterMoves (n + 1) with
    V := Reference.rounds s.H s.w n
    k := BitVec.ofNat 6 n
    phase := if n < 64 then Phase.rnd else Phase.fld }

theorem State.afterRounds_k (s : State) (hn : n < 64) : (s.afterRounds n).k.toNat = n := by
  rw [State.afterRounds, BitVec.toNat_ofNat, Nat.mod_eq_of_lt hn]

theorem State.afterRounds_succ (s : State) (n : Nat) :
    s.afterRounds (n + 1) = { (s.afterMoves (n + 1)).afterHostWrites.advance with
      V := round (Reference.rounds s.H s.w n) (Rom.roundConstant n) (s.w n)
      k := BitVec.ofNat 6 n + 1
      phase := if n < 63 then Phase.rnd else Phase.fld } := by
  have hlast : n + 1 < 64 ↔ n < 63 := Nat.succ_lt_succ_iff
  simp only [State.afterRounds, s.afterMoves_succ (n + 1), Reference.rounds, BitVec.ofNat_add, hlast]
  rfl

/-- The state after FLD, from the beginning of RIN. -/
def State.afterFold (s : State) : State :=
  { s.afterMoves 66 with
    H := Reference.compress s.H s.w
    V := Reference.rounds s.H s.w 64
    j := s.j + 1
    k := 0
    phase := if s.j.toNat + 1 < s.N.toNat then Phase.ldb else Phase.ser }

/-- The state after `n` of the 65 steps that end where FLD begins. -/
def State.compressing (s : State) : Nat → State
  | 0 => s
  | n + 1 => s.afterRounds n

theorem State.compressing_H (s : State) (n : Nat) : (s.compressing n).H = s.H := by
  cases n <;> rfl

section
variable (hd : ∀ m ∈ s.host.take 66, m.keepsDuty s.LEN.toNat)
include hd

theorem State.step_rin (hp : s.phase = 0x5) : step s = .next (s.afterRounds 0) := by
  have hmove : s.move.keepsDuty s.LEN.toNat := State.move_keepsDuty hd
  have hbusy : s.busy = true := by simp [State.busy_eq, hp]
  rw [step_of_busy hmove hbusy (coreStep_rin hp), State.afterRounds, s.afterMoves_succ 0]
  rfl

theorem State.step_afterRounds (hn : n < 64) : step (s.afterRounds n) = .next (s.afterRounds (n + 1)) := by
  have hp : (s.afterRounds n).phase = 0x6 := if_pos hn
  have hmove : (s.afterRounds n).move.keepsDuty s.LEN.toNat := State.afterMoves_keepsDuty hd (by omega)
  have hbusy : (s.afterRounds n).busy = true := by simp [State.busy_eq, hp]
  rw [step_of_busy hmove hbusy (coreStep_rnd hp), s.afterRounds_succ n]
  simp only [State.afterHostWrites_k, s.afterRounds_k hn]
  rfl

theorem State.step_fld (hj : s.j.toNat < s.N.toNat) : step (s.afterRounds 64) = .next s.afterFold := by
  have hmove : (s.afterRounds 64).move.keepsDuty s.LEN.toNat := State.afterMoves_keepsDuty hd (by omega)
  rw [step_of_busy hmove rfl (coreStep_fld rfl hj), State.afterFold, s.afterMoves_succ 65]
  rfl

theorem State.step_compressing (hp : s.phase = 0x5) (hn : n < 65) :
    step (s.compressing n) = .next (s.compressing (n + 1)) := by
  cases n with
  | zero => exact State.step_rin hd hp
  | succ n => exact State.step_afterRounds hd (by omega)

end

/-- Settles O30: the states of the 66 steps are written out, the only ones by determinism, and `H` is the old one in all but
the last. -/
theorem compressionIsComputed : Obligations.CompressionIsComputed := by
  intro s hp hj hd
  have hpath : ∀ n, n ≤ 65 → Steps n s (s.compressing n) := fun n hn =>
    Steps.of_path (path := s.compressing) fun i hi => State.step_compressing hd hp (by omega)
  have hrun : Steps 66 s s.afterFold := (hpath 65 le_rfl).append (n := 1) ⟨_, State.step_fld hd hj, rfl⟩
  have hnext : s.afterFold.j.toNat = s.j.toNat + 1 := by
    rw [← s.nextJ_toNat (Nat.lt_of_le_of_lt hj s.N.isLt), State.nextJ_eq hj]
    rfl
  refine ⟨s.afterFold, hrun, rfl, hnext, rfl, fun hm => ⟨?_, fun a => ?_⟩, rfl, fun n u hn hu => ?_⟩
  · exact Memory.wf_writeAll hm fun c hc => (State.hostWrites_above hd c hc).2
  · exact State.afterMoves_read hm hd
  · rw [hu.unique (hpath n (by omega)), s.compressing_H]

end Sys2Proof.Machine

namespace Sys2Proof.Machine

/-! R126 to R132: the bytes of the digest, the bits of the port they lie in, and the hexadecimal characters. -/

/-- An element of the concatenation of lists of one length is an element of the list at its quotient. -/
theorem getElem?_flatMap_of_length {α β : Type} {f : α → List β} {k : Nat} (hf : ∀ a, (f a).length = k) (l : List α)
    (n : Nat) {m : Nat} (hm : m < k) : (l.flatMap f)[k * n + m]? = l[n]?.bind fun a => (f a)[m]? := by
  induction l generalizing n with
  | nil => simp
  | cons a l ih =>
    rw [List.flatMap_cons]
    cases n with
    | zero =>
      rw [Nat.mul_zero, Nat.zero_add, List.getElem?_append_left (by rwa [hf])]
      rfl
    | succ n =>
      have hidx : k * (n + 1) + m = k + (k * n + m) := by ring
      rw [hidx, List.getElem?_append_right (by rw [hf]; omega), hf, Nat.add_sub_cancel_left, ih]
      rfl

/-! Bytes side by side as one number, most significant first. -/

theorem joinBytes_lt (l : List Byte) : joinBytes l < 256 ^ l.length := by
  induction l with
  | nil => exact Nat.one_pos
  | cons b l ih =>
    calc b.toNat * 256 ^ l.length + joinBytes l
      _ < (b.toNat + 1) * 256 ^ l.length := by rw [Nat.succ_mul]; omega
      _ ≤ 256 * 256 ^ l.length := Nat.mul_le_mul_right _ b.isLt
      _ = 256 ^ (l.length + 1) := (Nat.pow_succ').symm

theorem joinBytes_append (l r : List Byte) : joinBytes (l ++ r) = joinBytes l * 256 ^ r.length + joinBytes r := by
  induction l with
  | nil => simp [joinBytes]
  | cons b l ih =>
    rw [List.cons_append, joinBytes, ih, joinBytes, List.length_append]
    ring

/-- Each byte is a digit, in base 256, of the number they form. -/
theorem joinBytes_digit (l : List Byte) {i : Nat} (hi : i < l.length) :
    joinBytes l / 256 ^ (l.length - 1 - i) % 256 = l[i].toNat := by
  have hsplit : l = l.take i ++ l[i] :: l.drop (i + 1) := by simp
  have hrest : (l.drop (i + 1)).length = l.length - 1 - i := by
    rw [List.length_drop]
    omega
  have hlt := joinBytes_lt (l.drop (i + 1))
  have hjoin : joinBytes l = joinBytes (l.drop (i + 1)) +
      (joinBytes (l.take i) * 256 + l[i].toNat) * 256 ^ (l.length - 1 - i) := by
    conv_lhs => rw [hsplit]
    rw [joinBytes_append, joinBytes, List.length_cons, hrest]
    ring
  rw [hrest] at hlt
  rw [hjoin, Nat.add_mul_div_right _ _ (Nat.pow_pos (by omega)), Nat.div_eq_of_lt hlt, Nat.zero_add,
    Nat.mul_add_mod_of_lt l[i].isLt]

/-- Byte `i` of `l` is at its place in the `w` bits that hold `l`. -/
theorem extractLsb'_joinBytes {l : List Byte} {w i : Nat} (hw : w = 8 * l.length) (hi : i < l.length) :
    (BitVec.ofNat w (joinBytes l)).extractLsb' (w - 8 - 8 * i) 8 = l[i] := by
  have hbase : 2 ^ 8 = 256 := rfl
  have hfits : joinBytes l < 2 ^ w := by
    rw [hw, pow_mul]
    exact joinBytes_lt l
  have hplace : w - 8 - 8 * i = 8 * (l.length - 1 - i) := by omega
  apply BitVec.eq_of_toNat_eq
  rw [BitVec.extractLsb'_toNat, BitVec.toNat_ofNat, Nat.mod_eq_of_lt hfits, Nat.shiftRight_eq_div_pow, hplace, pow_mul,
    hbase, joinBytes_digit l hi]

/-! SER and the port `digest` (R126 to R128). -/

theorem exec_ser (s : State) : exec .ser s = .next { s with DIGEST := serialise s.H, phase := Phase.done } := rfl

/-- Byte `m` of word `i` is byte `4*i + m` of the digest. -/
theorem serialise_getElem_word (h : Vector Word 8) {i m : Nat} (hi : i < 8) (hm : m < 4) :
    (serialise h)[4 * i + m] = byteOf h[i] m := by
  have hword : (4 * i + m) / 4 = i := by omega
  have hbyte : (4 * i + m) % 4 = m := by omega
  simp only [serialise_getElem, hword, hbyte]

/-- Settles O22: byte `4*i + m` is `byteOf` of the word, a digit of its number in base 256. -/
theorem serSerialisesBigEndian : Obligations.SerSerialisesBigEndian := by
  refine ⟨rfl, fun s => ⟨serialise s.H, _, exec_ser s, rfl, rfl, fun i m hi hm => ?_⟩⟩
  rw [serialise_getElem_word s.H hi hm, toNat_byteOf_digit _ hm]

/-- The four bytes of a word, most significant first. -/
def wordBytes (w : Word) : List Byte := (List.range 4).map (byteOf w)

theorem wordBytes_length (w : Word) : (wordBytes w).length = 4 := rfl

theorem joinBytes_wordBytes (w : Word) : joinBytes (wordBytes w) = w.toNat := by
  rw [wordBytes, joinBytes_of_digits fun m hm => toNat_byteOf_digit w hm]
  exact Nat.mod_eq_of_lt w.isLt

/-- The digest is the bytes of the words one after the other. -/
theorem serialise_toList (h : Vector Word 8) : (serialise h).toList = h.toList.flatMap wordBytes := by
  have hlen : (h.toList.flatMap wordBytes).length = 32 := by simp [List.length_flatMap, wordBytes_length]
  refine List.ext_getElem (by rw [hlen, Vector.length_toList]) fun n hn hn' => ?_
  rw [hlen] at hn'
  have hword : n / 4 < 8 := by omega
  have hbyte : n % 4 < 4 := by omega
  have hw := getElem?_flatMap_of_length wordBytes_length h.toList (n / 4) hbyte
  rw [Nat.div_add_mod] at hw
  simp only [Vector.getElem_toList, serialise_getElem]
  apply Option.some.inj
  rw [← List.getElem?_eq_getElem, hw]
  simp [hword, hbyte, wordBytes]

/-- A word in front of others is multiplied by `2^32` for each of them. -/
theorem joinBytes_flatMap_wordBytes_cons (ws : List Word) (w : Word) : joinBytes ((w :: ws).flatMap wordBytes) =
    w.toNat * 2 ^ (32 * ws.length) + joinBytes (ws.flatMap wordBytes) := by
  have hlen : (ws.flatMap wordBytes).length = 4 * ws.length := by
    simp [List.length_flatMap, wordBytes_length, Nat.mul_comm]
  have hbase : (256 ^ 4 : Nat) = 2 ^ 32 := rfl
  rw [List.flatMap_cons, joinBytes_append, joinBytes_wordBytes, hlen, pow_mul, hbase, ← pow_mul]

/-- Settles O51: each byte has its place in the number the bytes form, and so has each word of a serialised hash state. -/
theorem digestPortLayout : Obligations.DigestPortLayout := by
  refine ⟨fun d n hn => ?_, fun h => ?_⟩
  · have hbyte := extractLsb'_joinBytes (l := d.toList) (w := 256) (i := n) (by simp) (by simpa using hn)
    rwa [Vector.getElem_toList] at hbyte
  · have hwords : h.toList = [h[0], h[1], h[2], h[3], h[4], h[5], h[6], h[7]] := by
      conv_lhs => rw [← Vector.ofFn_getElem (xs := h)]
      rfl
    rw [digestBits, serialise_toList, hwords]
    simp only [joinBytes_flatMap_wordBytes_cons, List.length_cons, List.length_nil, List.flatMap_nil, joinBytes]
    rw [BitVec.toNat_ofNat]
    omega

/-! The port `digest_hex` (R130 to R132). -/

theorem toNat_hexdigit_decimal : ∀ {v : BitVec 4}, v.toNat ≤ 9 → (hexdigit v).toNat = 0x30 + v.toNat := by decide

theorem toNat_hexdigit_letter : ∀ {v : BitVec 4}, 10 ≤ v.toNat → (hexdigit v).toNat = 0x61 + (v.toNat - 10) := by decide

theorem hexdigit_range (v : BitVec 4) :
    (0x30 ≤ (hexdigit v).toNat ∧ (hexdigit v).toNat ≤ 0x39) ∨ (0x61 ≤ (hexdigit v).toNat ∧ (hexdigit v).toNat ≤ 0x66) := by
  have hv := v.isLt
  by_cases h : v.toNat ≤ 9
  · rw [toNat_hexdigit_decimal h]
    omega
  · rw [toNat_hexdigit_letter (by omega)]
    omega

/-- A host decodes a digit to the value it was made from. -/
theorem hexValue_hexdigit (v : BitVec 4) : hexValue (hexdigit v) = v.toNat := by
  unfold hexValue
  by_cases h : v.toNat ≤ 9
  · rw [toNat_hexdigit_decimal h, if_pos (by omega)]
    omega
  · rw [toNat_hexdigit_letter (by omega), if_neg (by omega)]
    omega

/-- The two characters of a byte, the high nibble's first. -/
def hexPair (b : Byte) : List Byte := [hexdigit (BitVec.ofNat 4 (b.toNat / 16)), hexdigit (BitVec.ofNat 4 (b.toNat % 16))]

theorem hexPair_length (b : Byte) : (hexPair b).length = 2 := rfl

theorem hexChars_eq (d : Vector Byte 32) : hexChars d = d.toList.flatMap hexPair := by
  refine congrArg d.toList.flatMap (funext fun b => ?_)
  have hhigh : (b >>> 4).truncate 4 = BitVec.ofNat 4 (b.toNat / 16) := by
    apply BitVec.eq_of_toNat_eq
    simp [Nat.shiftRight_eq_div_pow]
  have hlow : b.truncate 4 = BitVec.ofNat 4 (b.toNat % 16) := by
    apply BitVec.eq_of_toNat_eq
    simp
  rw [hhigh, hlow, hexPair]

theorem hexChars_length (d : Vector Byte 32) : (hexChars d).length = 64 := by
  simp [hexChars_eq, List.length_flatMap, hexPair_length]

/-- Characters `2*n` and `2*n + 1` are the pair of byte `n`. -/
theorem hexChars_getElem? (d : Vector Byte 32) {n m : Nat} (hn : n < 32) (hm : m < 2) :
    (hexChars d)[2 * n + m]? = (hexPair d[n])[m]? := by
  rw [hexChars_eq, getElem?_flatMap_of_length hexPair_length _ _ hm]
  simp [hn]

/-- Every character is a digit. -/
theorem exists_hexdigit_of_mem_hexChars {d : Vector Byte 32} {c : Byte} (hc : c ∈ hexChars d) : ∃ v, c = hexdigit v := by
  rw [hexChars_eq, List.mem_flatMap] at hc
  obtain ⟨b, -, hc⟩ := hc
  rcases List.mem_pair.1 hc with rfl | rfl <;> exact ⟨_, rfl⟩

theorem hexChars_getElem?_hexBits (d : Vector Byte 32) {c : Nat} (hc : c < 64) :
    (hexChars d)[c]? = some ((hexBits d).extractLsb' (504 - 8 * c) 8) := by
  have hlen := hexChars_length d
  rw [List.getElem?_eq_getElem (by omega), ← extractLsb'_joinBytes (w := 512) (by omega) (by omega)]
  rfl

theorem State.digestPort_done {s : State} (h : s.done = true) : s.digestPort = digestBits s.DIGEST := if_pos h

theorem State.hexPort_done {s : State} (h : s.done = true) (hasHex : Bool) :
    s.hexPort hasHex = if hasHex then some (hexBits s.DIGEST) else none := by
  rw [State.hexPort, if_pos h]

/-- Settles O52: the characters are the digits of the nibbles, two for each byte, and lie in the port as bytes side by side. -/
theorem hexPortLayout : Obligations.HexPortLayout := by
  refine ⟨fun d => ⟨hexChars_length d, fun c hc => ?_, fun n hn => ?_, fun c => hexChars_getElem?_hexBits d⟩,
    fun v => ⟨toNat_hexdigit_decimal, toNat_hexdigit_letter⟩, fun s => ⟨rfl, fun h => State.hexPort_done h true⟩⟩
  · obtain ⟨v, rfl⟩ := exists_hexdigit_of_mem_hexChars hc
    exact hexdigit_range v
  · exact ⟨hexChars_getElem? d (m := 0) hn (by omega), hexChars_getElem? d (m := 1) hn (by omega)⟩

/-- Settles O53: the two digits decode to the nibbles, which make up the byte. -/
theorem hexDecodesToDigest : Obligations.HexDecodesToDigest := by
  intro d n hn
  refine ⟨_, _, hexChars_getElem? d (m := 0) hn (by omega), hexChars_getElem? d (m := 1) hn (by omega), ?_⟩
  have hbyte := d[n].isLt
  rw [hexValue_hexdigit, hexValue_hexdigit, BitVec.toNat_ofNat, BitVec.toNat_ofNat]
  omega

end Sys2Proof.Machine

namespace Sys2Proof.Machine

/-! R129: without a command the core rests in DONE, and the ports keep the digest. -/

variable {s t : State} {n : Nat}

theorem coreStep_of_resting (hr : s.resting = true) : coreStep s = .next s := by
  rw [coreStep_eq_exec]
  rcases s.resting_iff.1 hr with hp | hp | hp <;> rw [hp] <;> rfl

/-- The step of a resting core without a command is the host's alone (R146). -/
theorem step_of_resting (hr : s.resting = true) (hrst : s.move.rst = false) (hstart : s.move.start = false)
    (h : step s = .next t) : t = s.afterHostWrites.advance := by
  obtain ⟨-, ⟨hrst', -⟩ | ⟨-, hstart', -⟩ | ⟨-, -, u, hu, rfl⟩⟩ := step_cases h
  · simp [hrst] at hrst'
  · simp [hstart] at hstart'
  · rw [coreStep_of_resting (s := s.afterHostWrites) hr] at hu
    cases hu
    rfl

/-- What holds of the host's moves for the next steps, and of the move of a host with none left, holds of the next move. -/
theorem State.move_of_forall {P : HostMove → Prop} (h : ∀ m ∈ s.host.take (n + 1), P m) (hnone : P HostMove.none) :
    P s.move := by
  unfold State.move
  cases hh : s.host with
  | nil => exact hnone
  | cons m r => exact h m (by simp [hh])

/-- In DONE, steps without a command keep the phase and the digest. -/
theorem Steps.keep_digest (hp : s.phase = 0x9) (hm : ∀ m ∈ s.host.take n, m.rst = false ∧ m.start = false)
    (h : Steps n s t) : t.phase = 0x9 ∧ t.DIGEST = s.DIGEST := by
  induction n generalizing s with
  | zero =>
    cases h
    exact ⟨hp, rfl⟩
  | succ n ih =>
    obtain ⟨u, hstep, h⟩ := h
    obtain ⟨hrst, hstart⟩ := State.move_of_forall hm ⟨rfl, rfl⟩
    obtain rfl := step_of_resting (s.resting_iff.2 (.inr (.inl hp))) hrst hstart hstep
    refine ih (s := s.afterHostWrites.advance) hp (fun m hmt => hm m <| List.mem_of_mem_tail ?_) h
    rw [List.tail_take_eq_take_tail]
    exact hmt

/-- Settles O54: in DONE each port is a function of `DIGEST`, which steps without a command keep. -/
theorem digestPortsHoldWhileDone : Obligations.DigestPortsHoldWhileDone := by
  refine ⟨fun s h => ⟨State.digestPort_done h, State.hexPort_done h true⟩, fun n s t hasHex hp hm h => ?_⟩
  obtain ⟨hp', hD⟩ := Steps.keep_digest hp hm h
  have hs : s.done = true := by simp [State.done_eq, hp]
  have ht : t.done = true := by simp [State.done_eq, hp']
  rw [State.digestPort_done hs, State.digestPort_done ht, State.hexPort_done hs, State.hexPort_done ht, hD]
  exact ⟨ht, rfl, rfl⟩

end Sys2Proof.Machine

namespace Sys2Proof.Machine

/-! R147: the run from START to DONE is busy all the while, with the digest at its end. -/

variable {s u : State} {msg : Nat → Byte} {L n : Nat}

/-- Under a host that keeps its duty, every state up to SER is a state of the run. -/
theorem State.Running.of_steps (h : s.Running msg L) (hn : n ≤ s.stepsToSer)
    (hm : ∀ m ∈ s.host.take n, m.keepsDuty L) (hs : Steps n s u) : u.Running msg L := by
  induction n generalizing s with
  | zero =>
    cases hs
    exact h
  | succ n ih =>
    have hser : s.phase ≠ 0x8 := fun hser => by
      rw [State.stepsToSer_ser hser] at hn
      omega
    obtain ⟨t, hst, ht, hleft, hhost⟩ := h.step (State.move_keepsDuty hm) hser
    obtain ⟨t', hst', hs⟩ := hs
    cases hst.symm.trans hst'
    refine ih ht (by omega) (fun m hmt => hm m <| List.mem_of_mem_tail ?_) hs
    rwa [List.tail_take_eq_take_tail, ← hhost]

/-- Every state of a run between START and DONE is busy. -/
theorem State.Starts.busy_of_steps (h : s.Starts L) (hm : s.MSG.wf = true) (hL : L < lengthLimit)
    (hd : s.DutyKept L (194 * blockCount L + 2)) (h0 : 0 < n) (hn : n < 194 * blockCount L + 3) (hs : Steps n s u) :
    u.busy = true := by
  obtain ⟨n, rfl⟩ := Nat.exists_eq_add_one.2 h0
  obtain ⟨t, hst, ht, hleft, hhost⟩ := h.running hm hL
  obtain ⟨t', hst', hs⟩ := hs
  cases hst.symm.trans hst'
  have hmoves : ∀ m ∈ t.host.take n, m.keepsDuty L := fun m hmt =>
    hd m ((List.take_sublist_take_left (by omega)).subset (hhost ▸ hmt))
  exact (ht.of_steps (by omega) hmoves hs).busy

/-- Settles O31: START begins a run, each step until SER is one of the run's, and SER ends it with the digest. -/
theorem runComputesDigest : Obligations.RunComputesDigest := by
  intro s L hm hs hL hd
  obtain ⟨t, hst, hp, hD⟩ := hs.reaches_done hm hL hd
  have hdone : t.done = true := by simp [State.done_eq, hp]
  have hport : t.digestPort = digestBits (Reference.digest s.afterHostWrites.MSG.read L) := by
    rw [State.digestPort_done hdone, hD]
  exact ⟨⟨t, hst, hp, hdone, hD, hport⟩, fun n u h0 hn hsu => hs.busy_of_steps hm hL hd h0 hn hsu⟩

end Sys2Proof.Machine

namespace Sys2Proof.Machine

/-! R133 to R136, R146, R164: what the step selects, and the host commands. -/

variable {s t : State}

/-- Settles O5: the selection by its three cases. -/
theorem stepSelectsByPriority : Obligations.StepSelectsByPriority := by
  intro s h
  rw [step_eq_runOf_fetch h, ← State.resting_iff]
  exact ⟨fun hrst => by rw [State.fetch_reset hrst],
    fun hrst hstart hrest => by rw [State.fetch_start hrst hstart hrest],
    fun hrst hno => by rw [State.fetch_uop_of_no_command hrst hno]⟩

/-- Settles O8: both are the core's own step, which each legal phase has. -/
theorem noCommandRunsMicroOperation : Obligations.NoCommandRunsMicroOperation := by
  intro s
  refine ⟨by rw [exec_nocmd, coreStep_eq_exec], fun h => ?_⟩
  obtain ⟨t, ht⟩ := exists_coreStep h
  obtain ⟨hMSG, hLEN, -⟩ := coreStep_frame ht
  exact ⟨t, ht, hMSG, hLEN⟩

/-- A START in a resting phase is accepted (R134). -/
theorem exec_start_accepted (len : BitVec 64) (h : s.resting = true) : exec (.start len) s = .next (s.beginRun len) :=
  if_pos h

/-- Settles O9: an accepted START is `beginRun`, and INIT is a busy phase. -/
theorem startBeginsRun : Obligations.StartBeginsRun :=
  fun s len h => ⟨s.beginRun len, exec_start_accepted len (s.resting_iff.2 h), rfl, rfl, rfl, rfl⟩

/-- Settles O11: the flags are functions of the phase, and MSG and the moves are no registers of the core. -/
theorem resetGoesIdle : Obligations.ResetGoesIdle :=
  fun s _ => ⟨s.resetRegisters, rfl, rfl, rfl, rfl, rfl, fun _ => rfl, rfl⟩

/-- Settles O13: each resting code is WAIT. -/
theorem restingCodesWait : Obligations.RestingCodesWait := fun _ => ⟨rfl, rfl, rfl, rfl, rfl, rfl⟩

/-! R135: START while busy. -/

/-- `s` with other moves of the host to come. -/
def State.withHost (s : State) (host : List HostMove) : State := { s with host := host }

theorem State.nextInner_withHost (s : State) (host : List HostMove) (last : Nat) (restart : BitVec 6) (after : BitVec 4) :
    (s.withHost host).nextInner last restart after = (s.nextInner last restart after).withHost host := by
  rw [State.nextInner_eq, State.nextInner_eq]
  rfl

/-- The core's own step neither looks at the host's moves nor changes them. -/
theorem coreStep_withHost (host : List HostMove) (h : coreStep s = .next t) :
    coreStep (s.withHost host) = .next (t.withHost host) := by
  have hcode {p : BitVec 4} (hp : s.phase = p) : coreStep (s.withHost host) = exec (decodeUop p) (s.withHost host) := by
    rw [← hp, coreStep_eq_exec]
    rfl
  rcases coreStep_cases h with ⟨hr, rfl⟩ | ⟨hp, hL, rfl⟩ | ⟨hp, hL, rfl⟩ | ⟨hp, rfl⟩ | ⟨hp, rfl⟩ | ⟨hp, rfl⟩ | ⟨hp, rfl⟩ |
    ⟨hp, rfl⟩ | ⟨hp, rfl⟩ | ⟨hp, rfl⟩
  · rcases t.resting_iff.1 hr with hp | hp | hp <;> exact hcode hp
  · exact (hcode hp).trans (if_pos hL)
  · exact (hcode hp).trans (if_neg (Nat.not_le.2 hL))
  · exact (hcode hp).trans (congrArg Host.Outcome.next (State.nextInner_withHost (s.setBlk s.loadedByte) host _ _ _))
  · exact (hcode hp).trans (congrArg Host.Outcome.next (State.nextInner_withHost (s.setW s.packedWord) host _ _ _))
  · exact (hcode hp).trans (congrArg Host.Outcome.next (State.nextInner_withHost (s.setW s.expandedWord) host _ _ _))
  · exact hcode hp
  · exact (hcode hp).trans (congrArg Host.Outcome.next (State.nextInner_withHost
      { s with V := round s.V (Rom.roundConstant s.k.toNat) (s.w s.k.toNat) } host _ _ _))
  · exact hcode hp
  · exact hcode hp

/-- A busy phase is a legal one. -/
theorem State.phase_le_of_busy (h : s.busy = true) : s.phase.toNat ≤ 0xA := by
  rw [State.busy_eq, Bool.and_eq_true, decide_eq_true_eq, decide_eq_true_eq] at h
  omega

/-- In a busy phase a step without RESET is the core's own, for every host that is not refused. -/
theorem step_of_busy_noReset (hr : s.hostRefusal = none) (hb : s.busy = true) (hrst : s.move.rst = false)
    (h : coreStep s.afterHostWrites = .next t) : step s = .next t.advance := by
  apply step_of_exec hr
  rw [State.fetch_uop hrst (State.resting_of_busy hb), ← h, coreStep_eq_exec]
  rfl

/-- A move is refused for its writes alone. -/
theorem State.withHost_hostRefusal_congr {m m' : HostMove} (rest : List HostMove) (hw : m.writes = m'.writes) :
    (s.withHost (m :: rest)).hostRefusal = (s.withHost (m' :: rest)).hostRefusal :=
  congrArg (List.findSome? s.checkWrite) hw

/-- In a busy phase, two moves without `rst` and with the same writes have the same step. -/
theorem step_withHost_congr {m m' : HostMove} (rest : List HostMove) (hb : s.busy = true) (hrst : m.rst = false)
    (hrst' : m'.rst = false) (hw : m.writes = m'.writes) :
    step (s.withHost (m :: rest)) = step (s.withHost (m' :: rest)) := by
  have hrefusal := s.withHost_hostRefusal_congr rest hw
  cases hr' : (s.withHost (m' :: rest)).hostRefusal with
  | some r => rw [step, step, hrefusal, hr']
  | none =>
    obtain ⟨t, ht⟩ := exists_coreStep (s := { s with MSG := s.MSG.writeAll m.writes }) (State.phase_le_of_busy hb)
    have ht' : coreStep { s with MSG := s.MSG.writeAll m'.writes } = .next t := hw ▸ ht
    have hstep : step (s.withHost (m :: rest)) = .next (t.withHost (m :: rest)).advance :=
      step_of_busy_noReset (hrefusal.trans hr') hb hrst (coreStep_withHost (m :: rest) ht)
    have hstep' : step (s.withHost (m' :: rest)) = .next (t.withHost (m' :: rest)).advance :=
      step_of_busy_noReset hr' hb hrst' (coreStep_withHost (m' :: rest) ht')
    rw [hstep, hstep']
    rfl

/-- Settles O10: the core's own step looks at no pin, and it never writes `LEN`. -/
theorem busyStartIsIgnored : Obligations.BusyStartIsIgnored := by
  refine ⟨fun s m rest len hb hrst => ?_, fun s len hb => ?_⟩
  · exact step_withHost_congr (m := { m with start := true }) (m' := { m with start := false, len := len })
      rest hb hrst hrst rfl
  · obtain ⟨t, ht⟩ := exists_coreStep (State.phase_le_of_busy hb)
    have hrest : ¬ s.resting = true := by simp [State.resting_of_busy hb]
    exact ⟨t, by rw [exec_start_ignored len hrest, ht], by rw [← coreStep_eq_exec, ht], (coreStep_frame ht).2.1⟩

end Sys2Proof.Machine

namespace Sys2Proof.Machine

/-! R146: a resting phase is kept. The states on the way are those in which only the host has moved. -/

variable {s : State} {n i : Nat}

/-- What holds of the host's next `n` moves, and of the move of a host with none left, holds of each move in the next `n` steps. -/
theorem State.afterMoves_move_of_forall {P : HostMove → Prop} (h : ∀ m ∈ s.host.take n, P m) (hnone : P HostMove.none)
    (hi : i < n) : P (s.afterMoves i).move := by
  refine State.move_of_forall (n := 0) (fun m hm => h m ?_) hnone
  replace hm : m ∈ (s.host.drop i).take (0 + 1) := hm
  rw [List.take_drop] at hm
  exact (List.take_sublist_take_left (by omega)).subset (List.mem_of_mem_drop hm)

theorem HostMove.commandless_none : HostMove.none.commandless := ⟨rfl, rfl, by simp [HostMove.none]⟩

/-- A resting core is in no busy phase (R28). -/
theorem State.busy_of_resting (h : s.resting = true) : s.busy = false := by
  rw [Bool.eq_false_iff]
  intro hb
  simp [State.resting_of_busy hb] at h

/-- A resting core reads no message byte. -/
theorem State.msgRe_of_resting (h : s.resting = true) : s.msgRe = false :=
  State.msgRe_eq_false fun hp => by simp [State.resting_iff, hp] at h

/-- A resting core has a step on every move without a command, and that step is the host's alone. -/
theorem step_of_commandless (hr : s.resting = true) (hm : s.move.commandless) :
    step s = .next s.afterHostWrites.advance := by
  obtain ⟨hrst, hstart, hwrites⟩ := hm
  have hnone : s.hostRefusal = none := s.hostRefusal_eq_none.2 fun c hc =>
    ⟨hwrites c hc, fun hb => by simp [State.busy_of_resting hr] at hb⟩
  apply step_of_exec hnone
  rw [State.fetch_uop_of_no_start hrst hstart]
  exact (coreStep_eq_exec s.afterHostWrites).symm.trans (coreStep_of_resting hr)

/-- Moves without a command lead a resting core through the states in which only the host has moved. -/
theorem State.steps_afterMoves (hr : s.resting = true) (hm : ∀ m ∈ s.host.take n, m.commandless) :
    Steps n s (s.afterMoves n) := by
  refine Steps.of_path (path := s.afterMoves) fun i hi => ?_
  rw [s.afterMoves_succ]
  exact step_of_commandless hr (State.afterMoves_move_of_forall hm HostMove.commandless_none hi)

/-- Moves that write nothing leave MSG as it is. -/
theorem State.afterMoves_MSG (hm : ∀ m ∈ s.host.take n, m.writes = []) : (s.afterMoves n).MSG = s.MSG := by
  have hnil : s.hostWrites n = [] := List.flatMap_eq_nil_iff.2 hm
  show s.MSG.writeAll (s.hostWrites n) = s.MSG
  rw [hnil]
  rfl

/-- Settles O14: the state after the steps has every register as before, so the flags and the ports in DONE are as before. -/
theorem restingPhaseHolds : Obligations.RestingPhaseHolds := by
  intro n s hp hm
  have hr := s.resting_iff.2 hp
  have hports : s.done = true →
      (s.afterMoves n).digestPort = s.digestPort ∧ (s.afterMoves n).hexPort true = s.hexPort true := fun hd => by
    have hd' : (s.afterMoves n).done = true := hd
    rw [State.digestPort_done hd, State.digestPort_done hd', State.hexPort_done hd, State.hexPort_done hd']
    exact ⟨rfl, rfl⟩
  exact ⟨s.afterMoves n, State.steps_afterMoves hr hm, rfl, State.afterMoves_MSG, State.busy_of_resting hr, rfl, rfl,
    State.msgRe_of_resting hr, State.msgRe_of_resting (s := s.afterMoves n) hr, hports⟩

/-! R138, R161: INIT. -/

/-- INIT on an over-long length takes the fault and nothing else. -/
theorem exec_init_overlong (h : lengthLimit ≤ s.LEN.toNat) : exec .init s = .next (s.raise .lenOverflow) := if_pos h

/-- INIT on an accepted length sets up the first block. -/
theorem exec_init_accepted (h : s.LEN.toNat < lengthLimit) : exec .init s = .next { s with
    H := Rom.IV
    N := BitVec.ofNat 56 (blockCount s.LEN.toNat)
    j := 0
    k := 0
    phase := Phase.ldb } := if_neg (Nat.not_le.2 h)

/-- Settles O15: the two branches of the length check; the block count of an accepted length fits `N`. -/
theorem initChecksThenInitialises : Obligations.InitChecksThenInitialises :=
  ⟨rfl, fun s hp => State.msgRe_eq_false (by simp [hp]),
    fun s hL => ⟨s.raise .lenOverflow, exec_init_overlong hL, rfl, rfl, rfl, rfl⟩,
    fun s hL => ⟨BitVec.ofNat 56 (blockCount s.LEN.toNat), blockCount_toNat hL, exec_init_accepted hL⟩⟩

end Sys2Proof.Machine

namespace Sys2Proof.Machine

/-! R152, R162, R166, R168: the step of a host that is not refused, by what the pins select, and the states that have one. -/

variable {s u : State}

theorem step_of_reset (hr : s.hostRefusal = none) (hrst : s.move.rst = true) :
    step s = .next s.afterHostWrites.resetRegisters.advance :=
  step_of_exec hr (by rw [State.fetch_reset hrst]; rfl)

theorem step_of_start (hr : s.hostRefusal = none) (hrst : s.move.rst = false) (hstart : s.move.start = true)
    (hrest : s.resting = true) : step s = .next (s.afterHostWrites.beginRun s.move.len).advance :=
  step_of_exec hr (by rw [State.fetch_start hrst hstart hrest]; exact exec_start_accepted (s := s.afterHostWrites) _ hrest)

theorem step_of_no_command (hr : s.hostRefusal = none) (hrst : s.move.rst = false)
    (hno : ¬ (s.move.start = true ∧ s.resting = true)) (hu : coreStep s.afterHostWrites = .next u) :
    step s = .next u.advance := by
  rw [coreStep_eq_exec] at hu
  exact step_of_exec hr (by rw [State.fetch_uop_of_no_command hrst hno]; exact hu)

/-- A RESET step reads no message byte, in whatever phase (R46). -/
theorem State.msgRe_of_reset (hrst : s.move.rst = true) : s.msgRe = false := by
  simp [State.msgRe, State.fetch_reset hrst]

/-- In each of the eleven phases the step of a host that is not refused answers a next state. -/
theorem exists_step (hr : s.hostRefusal = none) (hp : s.phase.toNat ≤ 0xA) : ∃ t, step s = .next t := by
  rcases s.fetch_cases with ⟨hrst, -⟩ | ⟨hrst, hstart, hrest, -⟩ | ⟨hrst, hno, -⟩
  · exact ⟨_, step_of_reset hr hrst⟩
  · exact ⟨_, step_of_start hr hrst hstart hrest⟩
  · obtain ⟨u, hu⟩ := exists_coreStep (s := s.afterHostWrites) hp
    exact ⟨_, step_of_no_command hr hrst hno hu⟩

theorem step_of_refused {r : Refusal} (hr : s.hostRefusal = some r) : step s = .refused r := by
  simp [step, hr]

/-- Settles O12: the step is a RESET in every phase, and it leaves MSG as the host's writes made it. -/
theorem resetWinsOverEverything : Obligations.ResetWinsOverEverything := fun s hrst hr =>
  ⟨State.msgRe_of_reset hrst, s.afterHostWrites.resetRegisters.advance, step_of_reset hr hrst, rfl, rfl, rfl, rfl,
    State.msgRe_eq_false (by simp [Phase.idle]), fun _ => rfl, rfl⟩

/-- Settles O26: ERROR is a resting phase, so the three cases are RESET, an accepted START and WAIT. -/
theorem errorLeftByStartOrReset : Obligations.ErrorLeftByStartOrReset := by
  intro s hp hr
  have hrest : s.resting = true := s.resting_iff.2 (.inr (.inr hp))
  rcases s.fetch_cases with ⟨hrst, -⟩ | ⟨hrst, hstart, -⟩ | ⟨hrst, hno, -⟩
  · exact ⟨_, step_of_reset hr hrst, .inl ⟨hrst, rfl, rfl⟩⟩
  · exact ⟨_, step_of_start hr hrst hstart hrest, .inr (.inl ⟨hrst, hstart, rfl⟩)⟩
  · have hstart : s.move.start = false := by simpa [hrest] using hno
    exact ⟨_, step_of_no_command hr hrst hno (coreStep_of_resting hrest), .inr (.inr ⟨hrst, hstart, rfl⟩)⟩

/-- Settles O38: the invariant's phase is a legal one, and the step of a refused host is no fault either. -/
theorem noStepIsStuck : Obligations.NoStepIsStuck := by
  intro s h
  have hnext : s.hostRefusal = none → ∃ t, step s = .next t := fun hr => exists_step hr h.phaseLegal
  refine ⟨fun f => ?_, hnext⟩
  cases hr : s.hostRefusal with
  | some r => simp [step_of_refused hr]
  | none =>
    obtain ⟨t, ht⟩ := hnext hr
    simp [ht]

end Sys2Proof.Machine

namespace Sys2Proof.Machine

/-! R161, R165: a START on an over-long message, and the INIT step that refuses its length. -/

variable {s : State} {L : Nat}

/-- A message of `2^61` bytes or more would fill MSG and more, so the duty of its run leaves the host nothing to write. -/
theorem HostMove.writes_of_keepsDuty_overlong {m : HostMove} (h : m.keepsDuty L) (hL : lengthLimit ≤ L) :
    m.writes = [] := by
  refine List.eq_nil_iff_forall_not_mem.2 fun c hc => ?_
  obtain ⟨hlo, hhi⟩ := h.2 c hc
  unfold Memory.size at hhi
  unfold lengthLimit at hL
  omega

theorem State.afterHostWrites_of_no_writes (h : s.move.writes = []) : s.afterHostWrites = s := by
  rw [State.afterHostWrites, h]
  rfl

/-- An accepted START, the host's writes before it being bytes of MSG, begins the run. -/
theorem State.Starts.step_eq (h : s.Starts L) : step s = .next (s.afterHostWrites.beginRun s.move.len).advance := by
  have hr : s.hostRefusal = none := s.hostRefusal_eq_none.2 fun c hc =>
    ⟨h.writes c hc, fun hb => by simp [State.busy_of_resting h.resting] at hb⟩
  exact step_of_start hr h.noReset h.start h.resting

/-- The INIT step on an over-long length takes the fault, and nothing else happens in it. -/
theorem step_init_overlong (hp : s.phase = 0x1) (hL : lengthLimit ≤ s.LEN.toNat) (hm : s.move.keepsDuty s.LEN.toNat) :
    step s = .next (s.raise .lenOverflow).advance := by
  have hstill := State.afterHostWrites_of_no_writes (HostMove.writes_of_keepsDuty_overlong hm hL)
  have hb : s.busy = true := by simp [State.busy_eq, hp]
  refine step_of_busy hm hb ?_
  rw [hstill, coreStep_eq_exec, hp]
  exact exec_init_overlong hL

/-- Settles O27: START writes `LEN` and `phase`, INIT refuses the length, and neither is an LDB step. -/
theorem overlongRunEndsInError : Obligations.OverlongRunEndsInError := by
  intro s L h hL hd
  have hstart := h.step_eq
  have hinit : step (s.afterHostWrites.beginRun s.move.len).advance =
      .next ((s.afterHostWrites.beginRun s.move.len).advance.raise .lenOverflow).advance := by
    refine step_init_overlong rfl (h.len ▸ hL) (State.move_keepsDuty (n := 0) ?_)
    exact fun m hm => h.len ▸ hd m hm
  have hreads : readAddresses 2 s = [] := by
    rw [readAddresses_succ hstart, readAddresses_succ hinit, State.readNow, State.msgRe_of_resting h.resting,
      State.readNow_of_not_ldb (by simp [Phase.init])]
    rfl
  have hhost : s.host.tail.tail = s.host.drop 2 := by rw [← List.drop_one, ← List.drop_one, List.drop_drop]
  refine ⟨hreads, _, ⟨_, hstart, _, hinit, rfl⟩, rfl, rfl, rfl, ?_⟩
  rw [← hhost]
  rfl

end Sys2Proof.Machine

namespace Sys2Proof.Machine

/-! R186, R55: the message while a run is in progress. The core has no store, so the host's writes alone could change it. -/

variable {s t : State}

/-- What a step leaves in MSG is what the host's writes of its move made of it (R47). -/
theorem step_MSG (h : step s = .next t) : t.MSG = s.afterHostWrites.MSG := by
  obtain ⟨-, ⟨-, rfl⟩ | ⟨-, -, -, rfl⟩ | ⟨-, -, u, hu, rfl⟩⟩ := step_cases h
  · rfl
  · rfl
  · exact (coreStep_frame hu).1

/-- A busy core refuses a move that changes a byte of the message (log entry 6). -/
theorem State.exists_hostRefusal_of_change {c : Host.Cell} (hb : s.busy = true) (hc : c ∈ s.move.writes)
    (hlt : c.1 < s.LEN.toNat) (hne : c.2 ≠ s.MSG.read c.1) : ∃ r, s.hostRefusal = some r :=
  Option.ne_none_iff_exists'.1 fun hr => hne ((s.hostRefusal_eq_none.1 hr c hc).2 hb hlt)

/-- Settles O40: a step changes MSG by the host's writes alone, and those of a host that is not refused leave the message alone. -/
theorem messageStableWhileBusy : Obligations.MessageStableWhileBusy := by
  refine ⟨fun s t hm hb hstep a ha => ?_, fun s c hb hc hlt hne => ?_⟩
  · obtain ⟨hr, -⟩ := step_cases hstep
    rw [step_MSG hstep, State.afterHostWrites_read hm hr hb ha]
  · obtain ⟨r, hr⟩ := State.exists_hostRefusal_of_change hb hc hlt hne
    exact ⟨r, step_of_refused hr⟩

end Sys2Proof.Machine

namespace Sys2Proof.Machine

/-! R194: the course of a run does not depend on the data. What selects the instruction, what addresses the message and what
each update writes to the position are functions of the fields that `SameCourse` compares, and of the pins. -/

variable {s s' t : State}

theorem SameCourse.resting_eq (h : SameCourse s s') : s.resting = s'.resting := congrArg restingAt h.phase

/-- The pins and the phase select the instruction. -/
theorem SameCourse.fetch_eq (h : SameCourse s s') (hp : SamePins s s') : s.fetch = s'.fetch := by
  obtain ⟨hrst, hstart, hlen⟩ := hp
  rw [State.fetch, State.fetch, hrst, hstart, hlen, h.resting_eq, h.phase]

theorem SameCourse.byteIndex_eq (h : SameCourse s s') : s.byteIndex = s'.byteIndex := by
  simp only [State.byteIndex, h.j, h.k]

theorem SameCourse.msgRe_eq (h : SameCourse s s') (hp : SamePins s s') : s.msgRe = s'.msgRe := by
  simp only [State.msgRe, h.fetch_eq hp, h.byteIndex_eq, h.len]

theorem SameCourse.msgAddr_eq (h : SameCourse s s') (hp : SamePins s s') : s.msgAddr = s'.msgAddr := by
  simp only [State.msgAddr, h.msgRe_eq hp, h.byteIndex_eq, h.draw]

theorem SameCourse.nextJ_eq (h : SameCourse s s') : s.nextJ = s'.nextJ := by
  simp only [State.nextJ, h.j, h.draw]

theorem SameCourse.afterHostWrites (h : SameCourse s s') : SameCourse s.afterHostWrites s'.afterHostWrites := { h with }

theorem SameCourse.advance (h : SameCourse s s') : SameCourse s.advance s'.advance :=
  { h with draw := congrArg (· + 1) h.draw }

theorem SameCourse.beginRun (h : SameCourse s s') {len len' : BitVec 64} (hlen : len = len') :
    SameCourse (s.beginRun len) (s'.beginRun len') := { h with phase := rfl, len := hlen }

/-- The free values of RESET are those of the counter `draw`. -/
theorem SameCourse.resetRegisters (h : SameCourse s s') : SameCourse s.resetRegisters s'.resetRegisters where
  phase := rfl
  j := congrArg Config.freeJ h.draw
  k := congrArg Config.freeK h.draw
  len := congrArg Config.freeLEN h.draw
  count := congrArg Config.freeN h.draw
  draw := h.draw

theorem SameCourse.setBlk (h : SameCourse s s') (b b' : Byte) : SameCourse (s.setBlk b) (s'.setBlk b') := { h with }

theorem SameCourse.setW (h : SameCourse s s') (x x' : Word) : SameCourse (s.setW x) (s'.setW x') := { h with }

theorem SameCourse.setV (h : SameCourse s s') (v v' : Vector Word 8) :
    SameCourse { s with V := v } { s' with V := v' } := { h with }

theorem SameCourse.nextInner (h : SameCourse s s') (last : Nat) (restart : BitVec 6) (after : BitVec 4) :
    SameCourse (s.nextInner last restart after) (s'.nextInner last restart after) := by
  rw [State.nextInner_eq, State.nextInner_eq, ← h.k, ← h.phase]
  exact { h with phase := rfl, k := rfl }

/-- The core's own step of two states of one course leads to two states of one course. -/
theorem SameCourse.exists_coreStep (h : SameCourse s s') (hc : coreStep s = .next t) :
    ∃ t', coreStep s' = .next t' ∧ SameCourse t t' := by
  have hcode {p : BitVec 4} (hp : s.phase = p) : coreStep s' = exec (decodeUop p) s' := by
    rw [← hp, h.phase, coreStep_eq_exec]
  rcases coreStep_cases hc with ⟨hr, rfl⟩ | ⟨hp, hL, rfl⟩ | ⟨hp, hL, rfl⟩ | ⟨hp, rfl⟩ | ⟨hp, rfl⟩ | ⟨hp, rfl⟩ | ⟨hp, rfl⟩ |
    ⟨hp, rfl⟩ | ⟨hp, rfl⟩ | ⟨hp, rfl⟩
  · exact ⟨s', coreStep_of_resting (h.resting_eq ▸ hr), h⟩
  · exact ⟨_, (hcode hp).trans (exec_init_overlong (h.len ▸ hL)), { h with phase := rfl }⟩
  · exact ⟨_, (hcode hp).trans (exec_init_accepted (h.len ▸ hL)),
      { h with phase := rfl, j := rfl, k := rfl, count := by rw [h.len] }⟩
  · exact ⟨_, hcode hp, (h.setBlk _ _).nextInner _ _ _⟩
  · exact ⟨_, hcode hp, (h.setW _ _).nextInner _ _ _⟩
  · exact ⟨_, hcode hp, (h.setW _ _).nextInner _ _ _⟩
  · exact ⟨_, hcode hp, { h with phase := rfl, k := rfl }⟩
  · exact ⟨_, hcode hp, (h.setV _ _).nextInner _ _ _⟩
  · exact ⟨_, hcode hp, { h with phase := by rw [h.j, h.count], j := h.nextJ_eq, k := rfl }⟩
  · exact ⟨_, hcode hp, { h with phase := rfl }⟩

/-- On the same pins, and if neither host is refused, the step of two states of one course leads to two states of one course. -/
theorem SameCourse.exists_step (h : SameCourse s s') (hp : SamePins s s') (hr : s'.hostRefusal = none)
    (ht : step s = .next t) : ∃ t', step s' = .next t' ∧ SameCourse t t' := by
  obtain ⟨hrst, hstart, hlen⟩ := hp
  obtain ⟨-, ⟨h1, rfl⟩ | ⟨h1, h2, hrest, rfl⟩ | ⟨h1, hno, u, hu, rfl⟩⟩ := step_cases ht
  · exact ⟨_, step_of_reset hr (hrst ▸ h1), h.afterHostWrites.resetRegisters.advance⟩
  · exact ⟨_, step_of_start hr (hrst ▸ h1) (hstart ▸ h2) (h.resting_eq ▸ hrest), (h.afterHostWrites.beginRun hlen).advance⟩
  · obtain ⟨u', hu', hcourse⟩ := h.afterHostWrites.exists_coreStep hu
    have hno' : ¬ (s'.move.start = true ∧ s'.resting = true) := by rwa [← hstart, ← h.resting_eq]
    exact ⟨_, step_of_no_command hr (hrst ▸ h1) hno' hu', hcourse.advance⟩

/-- Settles O34: the pins and the compared fields determine the instruction and what it writes to those fields, and the read. -/
theorem courseDependsOnLengthOnly : Obligations.CourseDependsOnLengthOnly := by
  intro s s' t t' h hp ht ht'
  obtain ⟨hr, -⟩ := step_cases ht'
  obtain ⟨u, hu, hcourse⟩ := h.exists_step hp hr ht
  cases ht'.symm.trans hu
  exact ⟨hcourse, h.msgRe_eq hp, h.msgAddr_eq hp⟩

end Sys2Proof.Machine
